-- ==== Sys2Proof/Word.lean ====
section
/-! DEFINITION. The widths of QRSYM (R10, R14, R50, R52): host words, characters and codewords,
host addresses, bit sequences. -/

namespace Sys2Proof

/-- One host data word, 16 bits (R10, R52). A command is one such word (R70). -/
abbrev Word := BitVec 16

/-- An 8-bit value: a text character (R21) or a codeword (R55). -/
abbrev Byte := BitVec 8

/-- A host word address, 12 bits (R50). -/
abbrev Addr := BitVec 12

/-- A bit sequence in sequence order, index 0 the first bit appended (R14); `true` is the bit 1. -/
abbrev BitSeq := List Bool

end Sys2Proof
end

