-- ==== Sys2Proof/Config.lean ====
section
/-! DEFINITION. The configuration of QRSYM (R6 to R11): the fixed sizes, the shape of the parameter
record, and the free value for what the spec leaves unspecified. The values of the record stand in
`Sys2Proof/Machine/Params.lean`. -/

namespace Sys2Proof

/-- The modes of the source's `EncodingMode` (R74). Kanji is a mode value that no encoder serves
(R105, R111). -/
inductive Mode where
  | numeric
  | alphanumeric
  | byte
  | kanji
  deriving DecidableEq, Repr

namespace Config

/-- `SIZE` (R6): rows and columns of the grid. -/
abbrev size : Nat := 33

/-- `TEXT_MAX` (R10): cells of the input buffer. -/
abbrev textMax : Nat := 255

/-- `BITS_MAX` (R10): the longest bit stream any level produces. -/
abbrev bitsMax : Nat := 720

/-- Words of the codeword window (R51, R56). -/
abbrev cwMax : Nat := 90

/-- Number of mask candidates (R160). -/
abbrev maskCount : Nat := 8

/-- The parameters of `00_scope.md` section 4 that are not sizes, as one record (R6 to R9, R11). -/
structure Params where
  /-- `VERSION` (R6): used by the dark module's row only (R145). -/
  version : Nat
  /-- `CAP` (R7): data capacity in bits, by the value of `LEVEL`. -/
  cap : Byte → Nat
  /-- `NRED` (R8): redundancy codewords, by the value of `LEVEL`. -/
  nred : Byte → Nat
  /-- `CCW` (R9): width of the character-count field, by mode. -/
  ccw : Mode → Nat
  /-- `MASK_FN` (R11, R162): whether candidate `k` flips cell `(r, c)`. -/
  maskFn : Fin 8 → Nat → Nat → Bool

/-- FREE VALUE (R39, R230; log entry 2): what `TEXT[i]` holds after the `n`-th assertion of the reset
input. The spec says only that each cell "holds some 8-bit value, not known, stable until written". -/
opaque textAfterReset : (n i : Nat) → Byte

end Config

end Sys2Proof
end

