-- ==== Sys2Proof/Syntax.lean ====
section
/-! DEFINITION. The syntax of QRSYM: the nine commands (R71), the registers of the address map (R51),
the events at the host interface (R16, R230), and the lines of a host program (R83). -/

namespace Sys2Proof

/-- The commands, one constructor per row of `spec/opcode_table.json` (R71). A command has no operand
fields: its operands are the named registers (R70). -/
inductive Instr where
  /-- `NOP` 0x0000: nothing (R181). -/
  | nop
  /-- `CLS` 0x0001: choose the mode (R103). -/
  | cls
  /-- `ENC` 0x0002: build the padded data bit sequence (R104). -/
  | enc
  /-- `RED` 0x0003: append the redundancy codewords (R130). -/
  | red
  /-- `STR` 0x0004: clear the grid and stamp the structural patterns (R140). -/
  | str
  /-- `PLC` 0x0005: zigzag data placement and zero fill (R147). -/
  | plc
  /-- `MSK` 0x0006: score the eight masks, apply the best (R160). -/
  | msk
  /-- `GEN` 0x0007: the whole pipeline (R182). -/
  | gen
  /-- `CLR` 0x0008: discard results and error, keep operands (R183). -/
  | clr
  deriving DecidableEq, Repr

/-- The named registers of the address map (R51). An address that is none of these is reserved
(R53). -/
inductive Reg where
  | cmd
  | status
  | err
  | level
  | modeReq
  | tlen
  | mode
  | size
  | version
  | blen
  | maskSel
  | pen (k : Fin 8)
  | text (i : Fin 255)
  | cw (j : Fin 90)
  | grid (r c : Fin 33)
  deriving DecidableEq, Repr

/-- What can arrive at the block from outside, one at a time (R60, R63): a host read or write of one
word, `MemRead(a, 1)` and `MemWrite(a, 1, v)` (R16), or an assertion of the reset input (R230). -/
inductive HostEvent where
  | read (a : Addr)
  | write (a : Addr) (v : Word)
  | reset
  deriving DecidableEq, Repr

/-- The level names of the pseudo-line `LVL` (R83). -/
inductive LevelName where
  | l
  | m
  | q
  | h
  deriving DecidableEq, Repr

/-- The request names of the pseudo-line `REQ` (R83): no mode named is `REQ AUTO`. -/
inductive RequestName where
  | auto
  | named (m : Mode)
  deriving DecidableEq, Repr

/-- One line of a host program (R83): the three line forms and the four pseudo-lines. -/
inductive Line where
  /-- `WR name, v` -/
  | wr (r : Reg) (v : Word)
  /-- `RD name` -/
  | rd (r : Reg)
  /-- a command by its mnemonic -/
  | cmd (i : Instr)
  /-- `TEXT "abc"`, the characters given by their codes (R78) -/
  | text (cs : List Byte)
  /-- `LVL L`, `LVL M`, `LVL Q`, `LVL H` -/
  | lvl (v : LevelName)
  /-- `REQ AUTO`, `REQ NUM`, `REQ ALNUM`, `REQ BYTE`, `REQ KANJI` -/
  | req (r : RequestName)
  /-- `RUN`: the six stage commands -/
  | run
  deriving DecidableEq, Repr

end Sys2Proof
end

