-- ==== Sys2Proof/WellFormed.lean ====
section
/-! DEFINITION. Well-formedness. A command has no operand fields (R70), so every term of `Instr` is
well formed; what can be ill formed is the word a host writes to `CMD` (R70, R72) and a host program's
`TEXT` line, whose characters must fit the input buffer (R10, R83). -/

namespace Sys2Proof

/-- The reserved field `rsv`, bits 15:4 of a command word (R70). -/
def CommandWord.rsv (w : Word) : BitVec 12 := w.extractLsb' 4 12

/-- The operation code `op`, bits 3:0 of a command word (R70). -/
def CommandWord.op (w : Word) : BitVec 4 := w.extractLsb' 0 4

/-- R70: `rsv` must be 0. -/
def CommandWord.reservedFieldZero (w : Word) : Bool := CommandWord.rsv w == 0

/-- R71: the operation codes 0x0 to 0x8 are commands, 0x9 to 0xF are reserved. -/
def CommandWord.opAssigned (w : Word) : Bool := decide ((CommandWord.op w).toNat ≤ 8)

/-- A word that encodes a command: the negation of "illegal" in R72. -/
def CommandWord.wf (w : Word) : Bool := CommandWord.reservedFieldZero w && CommandWord.opAssigned w

/-- A command has no field that could be ill formed (R70). -/
def Instr.wf (_ : Instr) : Bool := true

/-- A host program line is well formed when its text, if it has one, fits `TEXT` (R10). -/
def Line.wf : Line → Bool
  | .text cs => decide (cs.length ≤ Config.textMax)
  | .wr _ _ => true
  | .rd _ => true
  | .cmd _ => true
  | .lvl _ => true
  | .req _ => true
  | .run => true

end Sys2Proof
end

