-- ==== Sys2Proof/Decode.lean ====
section
/-! DEFINITION. The decoder of command words, total on every 16-bit word and rejecting by name (R70 to
R72), and after it the encoder. A command is always one word (R70), and the block has no byte order:
no access is narrower than a word (R55). -/

namespace Sys2Proof

/-- Why a word encodes no command (R72). Both raise `E_CMD` (R206). -/
inductive DecodeReject where
  /-- `rsv`, bits 15:4, is not 0. -/
  | reservedField
  /-- `op` is 0x9 to 0xF. -/
  | reservedOp
  deriving DecidableEq, Repr

/-- The operation codes of R71. -/
def decodeOp (op : BitVec 4) : Except DecodeReject Instr :=
  match op.toNat with
  | 0 => .ok .nop
  | 1 => .ok .cls
  | 2 => .ok .enc
  | 3 => .ok .red
  | 4 => .ok .str
  | 5 => .ok .plc
  | 6 => .ok .msk
  | 7 => .ok .gen
  | 8 => .ok .clr
  | _ => .error .reservedOp

/-- The command a word written to `CMD` encodes (R70 to R72). -/
def decode (w : Word) : Except DecodeReject Instr :=
  if CommandWord.rsv w = 0 then decodeOp (CommandWord.op w) else .error .reservedField

/-- The operation code of a command (R71). -/
def opcode : Instr → BitVec 4
  | .nop => 0x0
  | .cls => 0x1
  | .enc => 0x2
  | .red => 0x3
  | .str => 0x4
  | .plc => 0x5
  | .msk => 0x6
  | .gen => 0x7
  | .clr => 0x8

/-- The word of a command (R70): `rsv` zero, then `op`. -/
def encode (i : Instr) : Word := (0 : BitVec 12) ++ opcode i

/-- What the decoder reads from an instruction of the opcode table, its bits `w` numbered as the table
numbers them: one 16-bit word, the bits above `nbits` zero. -/
def decodeTableWord (nbits w : Nat) : Option Instr :=
  (decode (BitVec.ofNat 16 (w % 2 ^ nbits))).toOption

end Sys2Proof
end

