-- ==== Sys2Proof/Machine/State.lean ====
section
/-! DEFINITION. The architectural state of QRSYM (R20) as plain data, what can stop a step, and the
state after reset (R39, R230). -/

namespace Sys2Proof.Machine

/-- The value of one grid cell: "Unset, Light(0), Dark(1)" (R27). The 2-bit code 11 never occurs
(R27, X7), so the type does not have it. -/
inductive Module where
  | light
  | dark
  | unset
  deriving DecidableEq, Repr

/-- `STAGE` (R30): how far the pipeline has run. The code 7 never occurs (R30, X7). -/
inductive Stage where
  /-- 0 `S_IDLE` -/
  | idle
  /-- 1 `S_CLASSIFIED` -/
  | classified
  /-- 2 `S_ENCODED` -/
  | encoded
  /-- 3 `S_REDUNDANT` -/
  | redundant
  /-- 4 `S_STRUCTURED` -/
  | structured
  /-- 5 `S_PLACED` -/
  | placed
  /-- 6 `S_DONE` -/
  | done
  deriving DecidableEq, Repr

/-- `ERR` (R31, R200): the first error since the last `CLR` or reset. The codes 7 to 255 never occur
(R200, X7). -/
inductive ErrCode where
  /-- 0: no error -/
  | noError
  /-- 1 `E_MODE` -/
  | eMode
  /-- 2 `E_EMPTY` -/
  | eEmpty
  /-- 3 `E_OVERFLOW` -/
  | eOverflow
  /-- 4 `E_CHAR` -/
  | eChar
  /-- 5 `E_SEQ` -/
  | eSeq
  /-- 6 `E_CMD` -/
  | eCmd
  deriving DecidableEq, Repr

/-- The Matrix (R27): 33 rows of 33 cells, row 0 at the top and column 0 at the left (R18). -/
abbrev Grid := Vector (Vector Module 33) 33

/-- Every cell Unset: the reset value of `GRID` and what `STR` starts from (R27, R141). -/
def Grid.allUnset : Grid := Vector.replicate 33 (Vector.replicate 33 .unset)

/-- The state tuple of R20, and beside it what stands at the host's side of the interface.
`BLEN` is the length of `bits` and is not stored twice (R26; log entry 4). -/
structure State where
  /-- `TEXT[0..254]` (R21), 8 bits each. -/
  text : Vector Byte 255
  /-- `TLEN` (R22), 8 bits. -/
  tlen : Byte
  /-- `LEVEL` (R23), 8 bits. -/
  level : Byte
  /-- `MODE_REQ` (R24), 4 bits. -/
  modeReq : BitVec 4
  /-- `MODE` (R25), 4 bits: the chosen mode's indicator, 0 when none is chosen. -/
  mode : BitVec 4
  /-- `BITS` (R26), first bit first. -/
  bits : BitSeq
  /-- `GRID` (R27). -/
  grid : Grid
  /-- `PEN[0..7]` (R28), 16 bits each. -/
  pen : Vector (BitVec 16) 8
  /-- `MASK_SEL` (R29), 3 bits. -/
  maskSel : BitVec 3
  /-- `STAGE` (R30), 3 bits. -/
  stage : Stage
  /-- `ERR` (R31), 8 bits. -/
  err : ErrCode
  /-- The model's own: the host's accesses and reset assertions not yet answered, oldest first (R63;
  log entry 3). -/
  host : List HostEvent
  /-- The model's own: the data words of the reads answered so far, oldest first (R54, R63; log
  entry 3). -/
  reads : List Word
  /-- The model's own: how many times the reset input has been asserted, the counter that picks the
  free value `Config.textAfterReset` (log entry 2). -/
  resets : Nat
  deriving DecidableEq, Repr

/-- What stops the machine. -/
inductive Fault where
  /-- Raised by `MSK` when `GRID` still holds an Unset cell at `STAGE = 5`: R163 defines mask
  application "on binary grids only". Safe: no state that meets `Sys2Proof.Machine.Consistent` raises
  it, so no run from reset does (log entry 5). -/
  | maskOfUnsetGrid
  deriving DecidableEq, Repr

/-- What the model has no meaning for. -/
inductive Refusal where
  /-- Raised by `exec` for a command without a meaning; no command of this model is one. Safe. -/
  | notModelled (mnemonic : String)
  deriving DecidableEq, Repr

/-- The machine right after reset (R39, R230). `TEXT` is unspecified there: the zeros are the model's
(DESIGN CHOICE, unsafe: log entry 1), and so is the reset value of the three fields of its own (log entries 2
and 3). -/
def State.reset : State where
  text := Vector.replicate 255 0
  tlen := 0
  level := 1
  modeReq := 0
  mode := 0
  bits := []
  grid := Grid.allUnset
  pen := Vector.replicate 8 0
  maskSel := 0
  stage := .idle
  err := .noError
  host := []
  reads := []
  resets := 0

end Sys2Proof.Machine
end

