-- ==== Sys2Proof/Machine/Params.lean ====
section
/-! DEFINITION. The values of the parameters (R6 to R9, R11, R162) and the codes of the data formats
(R27, R30, R74, R81, R200). -/

namespace Sys2Proof.Machine

/-- `CAP` (R7): "Any level outside this set defaults to the M capacity." -/
def capOf (level : Byte) : Nat :=
  match level.toNat with
  | 0 => 640
  | 1 => 512
  | 2 => 384
  | 3 => 288
  | _ => 512

/-- `NRED` (R8). -/
def nredOf (level : Byte) : Nat :=
  match level.toNat with
  | 0 => 10
  | 1 => 16
  | 2 => 24
  | 3 => 28
  | _ => 16

/-- `CCW` (R9). The Kanji entry is never used (R105). -/
def ccwOf : Mode → Nat
  | .numeric => 10
  | .alphanumeric => 9
  | .byte => 8
  | .kanji => 8

/-- `MASK_FN` (R162). Entries 0 and 5 are the source's; the other six are the spec's decision D22
(PRESUMED, unsafe: log entry 8). -/
def maskFnOf (k : Fin 8) (r c : Nat) : Bool :=
  match k with
  | 0 => (r + c) % 2 == 0
  | 1 => r % 2 == 0
  | 2 => c % 3 == 0
  | 3 => (r + c) % 3 == 0
  | 4 => (r / 2 + c / 3) % 2 == 0
  | 5 => (r * c) % 2 + (r * c) % 3 == 0
  | 6 => ((r * c) % 2 + (r * c) % 3) % 2 == 0
  | 7 => ((r + c) % 2 + (r * c) % 3) % 2 == 0

/-- The parameters of this hardware (R6 to R9, R11). `VERSION` is the spec's decision D18 (PRESUMED, unsafe:
log entry 11). -/
def params : Config.Params where
  version := 4
  cap := capOf
  nred := nredOf
  ccw := ccwOf
  maskFn := maskFnOf

/-- The mode indicator (R74), also the code held by `MODE` and `MODE_REQ`. -/
def modeCode : Mode → BitVec 4
  | .numeric => 1
  | .alphanumeric => 2
  | .byte => 4
  | .kanji => 8

/-- The mode a 4-bit value names (R74): the values 0, 3, 5, 6, 7 and 9 to 15 name none. -/
def modeOfCode (v : BitVec 4) : Option Mode :=
  match v.toNat with
  | 1 => some .numeric
  | 2 => some .alphanumeric
  | 4 => some .byte
  | 8 => some .kanji
  | _ => none

/-- The 2-bit module code (R27, R81). -/
def moduleCode : Module → BitVec 2
  | .light => 0
  | .dark => 1
  | .unset => 2

/-- The code of a stage (R30). -/
def stageCode : Stage → BitVec 3
  | .idle => 0
  | .classified => 1
  | .encoded => 2
  | .redundant => 3
  | .structured => 4
  | .placed => 5
  | .done => 6

/-- The code of an error (R200; DESIGN CHOICE of the spec, D16, safe: log entry 13). -/
def errCode : ErrCode → Byte
  | .noError => 0
  | .eMode => 1
  | .eEmpty => 2
  | .eOverflow => 3
  | .eChar => 4
  | .eSeq => 5
  | .eCmd => 6

end Sys2Proof.Machine
end

