-- ==== Sys2Proof/Machine/Ops.lean ====
section
/-! DEFINITION. The shared operations: bits and codewords (R15, R55), grid cells (R27), error entry
(R208) and the return from it (R183, R210), command acceptance (R184). -/

namespace Sys2Proof.Machine

/-- What a command answers with. -/
abbrev Result := Host.Outcome State Fault Refusal

/-! ### Bit sequences and codewords -/

/-- `Bits(v, n)` (R15): the bit at index `i` is `(v div 2^(n-1-i)) mod 2`. Most significant first is the
spec's decision D10 (PRESUMED, unsafe: log entry 10). -/
def bitsOf (v n : Nat) : BitSeq := (List.range n).map fun i => v / 2 ^ (n - 1 - i) % 2 == 1

/-- The value of the first `p` bits of the group that begins at index `8*j`, the first of them with
weight `2^7` (R55, R56). -/
def groupValue (s : BitSeq) (j p : Nat) : Nat :=
  ((List.range p).map fun i => (s.getD (8 * j + i) false).toNat * 2 ^ (7 - i)).sum

/-- `CWof(s, j)` (R55), most-significant bit first. -/
def codeword (s : BitSeq) (j : Nat) : Byte := BitVec.ofNat 8 (groupValue s j 8)

/-- Re-expansion of bytes, 8 bits each, in order (R110, R133). -/
def bytesToBits (bs : List Byte) : BitSeq := bs.flatMap fun b => bitsOf b.toNat 8

/-! ### Grid cells -/

/-- `GRID[r][c]`. -/
def Grid.cell (g : Grid) (r c : Fin 33) : Module := g[r][c]

/-- `GRID[r][c] <- m`. -/
def Grid.setCell (g : Grid) (r c : Fin 33) (m : Module) : Grid := g.set r (g[r].set c m)

/-- The grid whose cell `(r, c)` is `f r c`. -/
def Grid.ofCells (f : Fin 33 → Fin 33 → Module) : Grid := Vector.ofFn fun r => Vector.ofFn fun c => f r c

/-- Row `r`, left to right. -/
def Grid.row (g : Grid) (r : Fin 33) : List Module := (List.finRange 33).map fun c => g.cell r c

/-- Column `c`, top to bottom. -/
def Grid.col (g : Grid) (c : Fin 33) : List Module := (List.finRange 33).map fun r => g.cell r c

/-- Whether no cell is Unset: bit 1 of every cell is 0 (R38). -/
def Grid.binary (g : Grid) : Bool :=
  (List.finRange 33).all fun r => (List.finRange 33).all fun c => g.cell r c != .unset

/-! ### Errors and acceptance -/

/-- Error entry (R17, R208): `ERR` takes the code and nothing else changes. Nothing is saved, no mode
changes and control goes nowhere (DESIGN CHOICE of the spec, D16, safe: log entry 13). -/
def raise (e : ErrCode) (s : State) : State := { s with err := e }

/-- The return from the error state and the end of an attempt (R183, R210): results, stage and error
are cleared, the operand registers stay. -/
def clearResults (s : State) : State :=
  { s with
    mode := 0
    bits := []
    grid := Grid.allUnset
    pen := Vector.replicate 8 0
    maskSel := 0
    stage := .idle
    err := .noError }

/-- Steps 2, 5 and 6 of command acceptance (R184) for a command legal at `need`: ignored while an error
is recorded (R209), `E_SEQ` at another stage (R205), else its body. -/
def accept (need : Stage) (body : State → Result) (s : State) : Result :=
  if s.err ≠ .noError then .next s
  else if s.stage ≠ need then .next (raise .eSeq s)
  else body s

/-- Steps 2 and 3 of command acceptance (R184) for a word that encodes no command: ignored while an
error is recorded, else `E_CMD` (R72, R206). -/
def rejectWord (s : State) : State := if s.err ≠ .noError then s else raise .eCmd s

/-- The input lock (R40) is open if and only if `STAGE = 0` and `ERR = 0`. -/
def inputsOpen (s : State) : Bool := s.stage == .idle && s.err == .noError

end Sys2Proof.Machine
end

