-- ==== Sys2Proof/Machine/Flags.lean ====
section
/-! DEFINITION. The flags: the read-only view `STATUS` (R32) and the two level outputs (R212; DEDUCED,
safe: log entry 14). QRSYM has
no arithmetic condition codes (R32). -/

namespace Sys2Proof.Machine

/-- `STATUS.ERRF`, and the level output `error` (R32, R212). -/
def errorFlag (s : State) : Bool := s.err != .noError

/-- `STATUS.DONE`, and the level output `done` (R32, R212). -/
def doneFlag (s : State) : Bool := s.stage == .done

/-- `STATUS` (R32): `STATUS[2:0] = STAGE`, `STATUS[3] = ERRF`, `STATUS[4] = DONE`, the rest 0. -/
def statusWord (s : State) : Word :=
  (0 : BitVec 11) ++ BitVec.ofBool (doneFlag s) ++ BitVec.ofBool (errorFlag s) ++ stageCode s.stage

end Sys2Proof.Machine
end

