-- ==== Sys2Proof/Machine/Operands.lean ====
section
/-! DEFINITION. The operands: the text and its character classes (R21, R100 to R102), the address map
and the value a host read of each register gives (R51 to R58), and a host write of an operand register
(R40, R52, R53). -/

namespace Sys2Proof.Machine

/-! ### The text -/

/-- `TEXT[0..TLEN-1]`, the input characters in input order (R21); cells at or above `TLEN` are not
read. -/
def chars (s : State) : List Byte := s.text.toList.take s.tlen.toNat

/-- `isDigit(c)` (R100). ASCII is the spec's decision D6 (PRESUMED, unsafe: log entry 9). -/
def isDigit (c : Byte) : Bool := decide (0x30 ≤ c.toNat ∧ c.toNat ≤ 0x39)

/-- The digit value `dval(c)` of a digit (R100), none for any other character. -/
def digitValue (c : Byte) : Option Nat := if isDigit c then some (c.toNat - 0x30) else none

/-- `aidx(c)` (R77, R101). The index order is the spec's decision D11 (PRESUMED, unsafe: log entry 9). -/
def alnumIndex (c : Byte) : Option Nat :=
  let n := c.toNat
  if 0x30 ≤ n ∧ n ≤ 0x39 then some (n - 0x30)
  else if 0x41 ≤ n ∧ n ≤ 0x5A then some (n - 0x41 + 10)
  else if n = 0x20 then some 36
  else if n = 0x24 then some 37
  else if n = 0x25 then some 38
  else if n = 0x2A then some 39
  else if n = 0x2B then some 40
  else if n = 0x2D then some 41
  else if n = 0x2E then some 42
  else if n = 0x2F then some 43
  else if n = 0x3A then some 44
  else none

/-- `isAlnum(c)` (R101). -/
def isAlnum (c : Byte) : Bool := (alnumIndex c).isSome

/-- `classify(T, n)` (R102): the most restrictive mode that covers the text. `CLS` never applies it to
the empty text (R103). -/
def classify (t : List Byte) : Mode :=
  if t.all isDigit then .numeric else if t.all isAlnum then .alphanumeric else .byte

/-! ### The address map -/

/-- The registers below 0x010 (R51). -/
def lowReg (n : Nat) : Option Reg :=
  match n with
  | 0x000 => some .cmd
  | 0x001 => some .status
  | 0x002 => some .err
  | 0x003 => some .level
  | 0x004 => some .modeReq
  | 0x005 => some .tlen
  | 0x006 => some .mode
  | 0x007 => some .size
  | 0x008 => some .version
  | 0x009 => some .blen
  | 0x00A => some .maskSel
  | _ => none

/-- The register at a word address (R51), from the lowest address up; none at a reserved address. -/
def regAt (a : Addr) : Option Reg :=
  let n := a.toNat
  if n < 0x010 then lowReg n
  else if n ≤ 0x017 then some (.pen (Fin.ofNat 8 (n - 0x010)))
  else if n < 0x100 then none
  else if n ≤ 0x1FE then some (.text (Fin.ofNat 255 (n - 0x100)))
  else if n < 0x200 then none
  else if n ≤ 0x259 then some (.cw (Fin.ofNat 90 (n - 0x200)))
  else if n < 0x400 then none
  else if n ≤ 0x840 then
    some (.grid (Fin.ofNat 33 ((n - 0x400) / 33)) (Fin.ofNat 33 ((n - 0x400) % 33)))
  else none

/-- The word address of a register (R51): `PEN[k]` at 0x010 + k, `TEXT[i]` at 0x100 + i (R58), `CW[j]`
at 0x200 + j (R56), cell `(r, c)` at 0x400 + 33*r + c (R57). -/
def regAddr : Reg → Addr
  | .cmd => 0x000
  | .status => 0x001
  | .err => 0x002
  | .level => 0x003
  | .modeReq => 0x004
  | .tlen => 0x005
  | .mode => 0x006
  | .size => 0x007
  | .version => 0x008
  | .blen => 0x009
  | .maskSel => 0x00A
  | .pen k => BitVec.ofNat 12 (0x010 + k.val)
  | .text i => BitVec.ofNat 12 (0x100 + i.val)
  | .cw j => BitVec.ofNat 12 (0x200 + j.val)
  | .grid r c => BitVec.ofNat 12 (0x400 + 33 * r.val + c.val)

/-! ### Host reads -/

/-- `BLEN` (R26): the length of `BITS` (DEDUCED, safe: log entry 4). -/
def blen (s : State) : Nat := s.bits.length

/-- The codeword window `CW[j]` (R56), a partial last group in the high positions. -/
def cwWindow (s : BitSeq) (j : Nat) : Byte :=
  let n := s.length / 8
  let p := s.length % 8
  if j < n then codeword s j
  else if j = n ∧ 0 < p then BitVec.ofNat 8 (groupValue s j p)
  else 0

/-- The value of a register as a host read gives it, zero-extended to 16 bits (R51, R52). `CMD` reads 0
(R33). -/
def readReg (s : State) : Reg → Word
  | .cmd => 0
  | .status => statusWord s
  | .err => (errCode s.err).setWidth 16
  | .level => s.level.setWidth 16
  | .modeReq => s.modeReq.setWidth 16
  | .tlen => s.tlen.setWidth 16
  | .mode => s.mode.setWidth 16
  | .size => BitVec.ofNat 16 Config.size
  | .version => BitVec.ofNat 16 params.version
  | .blen => BitVec.ofNat 16 (blen s)
  | .maskSel => s.maskSel.setWidth 16
  | .pen k => s.pen[k]
  | .text i => (s.text[i]).setWidth 16
  | .cw j => (cwWindow s.bits j.val).setWidth 16
  | .grid r c => (moduleCode (s.grid.cell r c)).setWidth 16

/-- `MemRead(a, 1)` (R16, R53): a reserved address reads 0. -/
def memRead (a : Addr) (s : State) : Word :=
  match regAt a with
  | some r => readReg s r
  | none => 0

/-! ### Host writes of operand registers -/

/-- A host write of `v` to a register other than `CMD`: the low bits are stored in an operand register
while the input lock is open (R40, R52); any other write changes nothing (R53). -/
def writeReg (r : Reg) (v : Word) (s : State) : State :=
  if inputsOpen s then
    match r with
    | .level => { s with level := v.setWidth 8 }
    | .modeReq => { s with modeReq := v.setWidth 4 }
    | .tlen => { s with tlen := v.setWidth 8 }
    | .text i => { s with text := s.text.set i (v.setWidth 8) }
    | _ => s
  else s

end Sys2Proof.Machine
end

