-- ==== Sys2Proof/Machine/ClassifyEncode.lean ====
section
/-! DEFINITION. Mode classification and the data bit-sequence encoder: `CLS` (R103) and `ENC` (R104 to
R116). -/

namespace Sys2Proof.Machine

/-! ### `CLS` -/

/-- The mode `CLS` chooses (R103): the classified mode's code when nothing is requested, else the
request, unchecked. -/
def chosenMode (s : State) : BitVec 4 :=
  if s.modeReq = 0 then modeCode (classify (chars s)) else s.modeReq

/-- The body of `CLS` (R103). -/
def clsBody (s : State) : State :=
  if s.tlen = 0 then raise .eEmpty s
  else { s with mode := chosenMode s, stage := .classified }

/-- `CLS`, legal when `STAGE = 0` (R103). -/
def execCls (s : State) : Result := accept .idle (fun s => .next (clsBody s)) s

/-! ### `ENC` -/

/-- The Numeric payload of a list of digit values (R108): groups of three from the front, then a short
last group. -/
def numericBits : List Nat → BitSeq
  | a :: b :: c :: ds => bitsOf (100 * a + 10 * b + c) 10 ++ numericBits ds
  | [a, b] => bitsOf (10 * a + b) 7
  | [a] => bitsOf a 4
  | [] => []

/-- The Alphanumeric payload of a list of indices (R109): pairs from the front, then a single one. -/
def alnumBits : List Nat → BitSeq
  | a :: b :: is => bitsOf (45 * a + b) 11 ++ alnumBits is
  | [a] => bitsOf a 6
  | [] => []

/-- The payload of a text in a mode (R108 to R111), or the error that keeps it from being made: a
character outside the mode's set (R106), a mode without an encoder (R105). -/
def payload (m : Mode) (t : List Byte) : Except ErrCode BitSeq :=
  match m with
  | .numeric =>
    match t.mapM digitValue with
    | some ds => .ok (numericBits ds)
    | none => .error .eChar
  | .alphanumeric =>
    match t.mapM alnumIndex with
    | some is => .ok (alnumBits is)
    | none => .error .eChar
  | .byte => .ok (bytesToBits t)
  | .kanji => .error .eMode

/-- Mode indicator, then character-count indicator (R107). -/
def header (m : Mode) (tlen : Nat) : BitSeq := bitsOf (modeCode m).toNat 4 ++ bitsOf tlen (params.ccw m)

/-- Up to 4 terminator zero bits (R113). -/
def terminator (cap : Nat) (s : BitSeq) : BitSeq := List.replicate (min 4 (cap - s.length)) false

/-- Zero bits until the length is byte-aligned (R114). -/
def alignment (s : BitSeq) : BitSeq := List.replicate ((8 - s.length % 8) % 8) false

/-- `n` filler bytes, 0xEC first, then 0x11, alternating (R80, R115; the order is the spec's decision D31,
PRESUMED, unsafe: log entry 12). -/
def filler (n : Nat) : BitSeq :=
  (List.range n).flatMap fun k => bitsOf (if k % 2 = 0 then 0xEC else 0x11) 8

/-- Terminator, alignment zeros and filler bytes up to the capacity (R113 to R115). -/
def pad (cap : Nat) (s : BitSeq) : BitSeq :=
  let s1 := s ++ terminator cap s
  let s2 := s1 ++ alignment s1
  s2 ++ filler ((cap - s2.length) / 8)

/-- The padded data sequence of a text (R104), or the first error in the order mode, characters,
capacity (R104, R207). -/
def encodeText (mode : BitVec 4) (level tlen : Byte) (t : List Byte) : Except ErrCode BitSeq :=
  match modeOfCode mode with
  | none => .error .eMode
  | some m =>
    match payload m t with
    | .error e => .error e
    | .ok p =>
      let s := header m tlen.toNat ++ p
      if params.cap level < s.length then .error .eOverflow else .ok (pad (params.cap level) s)

/-- The body of `ENC` (R104). -/
def encBody (s : State) : State :=
  match encodeText s.mode s.level s.tlen (chars s) with
  | .error e => raise e s
  | .ok b => { s with bits := b, stage := .encoded }

/-- `ENC`, legal when `STAGE = 1` (R104). -/
def execEnc (s : State) : Result := accept .classified (fun s => .next (encBody s)) s

end Sys2Proof.Machine
end

