-- ==== Sys2Proof/Machine/Redundancy.lean ====
section
/-! DEFINITION. The XOR redundancy appender: `RED` (R130 to R135). There is no Galois-field arithmetic
(R135). -/

namespace Sys2Proof.Machine

/-- The data codewords (R131): whole groups of 8 bits, an incomplete last group dropped. -/
def dataCodewords (s : BitSeq) : List Byte := (List.range (s.length / 8)).map (codeword s)

/-- Fold the codewords from position `i` on into the redundancy array `e`: each goes into the cell
`position mod nr` (R130, R132). -/
def foldCodewords (nr : Nat) : Nat → List Byte → List Byte → List Byte
  | _, [], e => e
  | i, d :: ds, e => foldCodewords nr (i + 1) ds (e.modify (i % nr) (fun x => x ^^^ d))

/-- The redundancy codewords (R132, R135): bytes in, `nr` redundancy bytes out. Positions count from 0 by
the spec's decision D36 (PRESUMED, unsafe: log entry 12). -/
def redundancy (data : List Byte) (nr : Nat) : List Byte := foldCodewords nr 0 data (List.replicate nr 0)

/-- Data codewords followed by redundancy codewords, re-expanded (R133). -/
def appendRedundancy (nr : Nat) (s : BitSeq) : BitSeq :=
  bytesToBits (dataCodewords s ++ redundancy (dataCodewords s) nr)

/-- The body of `RED` (R130). -/
def redBody (s : State) : State :=
  { s with bits := appendRedundancy (params.nred s.level) s.bits, stage := .redundant }

/-- `RED`, legal when `STAGE = 2` (R130). -/
def execRed (s : State) : Result := accept .encoded (fun s => .next (redBody s)) s

end Sys2Proof.Machine
end

