-- ==== Sys2Proof/Machine/Matrix.lean ====
section
/-! DEFINITION. The module-grid layout engine: `STR` (R140 to R146) and `PLC` (R147 to R152). -/

namespace Sys2Proof.Machine

/-! ### `STR` -/

/-- The contents of a grid under construction, by row and column. -/
abbrev Cells := Nat → Nat → Module

/-- Allocation (R141). -/
def allocated : Cells := fun _ _ => .unset

/-- `F(i, j)` (R142): border ring, light ring, 3 by 3 core. -/
def finderModule (i j : Nat) : Module :=
  if i = 0 ∨ i = 6 ∨ j = 0 ∨ j = 6 then .dark
  else if 2 ≤ i ∧ i ≤ 4 ∧ 2 ≤ j ∧ j ≤ 4 then .dark
  else .light

/-- One finder pattern at the origin `(r0, c0)` (R142). -/
def stampFinder (r0 c0 : Nat) (g : Cells) : Cells := fun r c =>
  if r0 ≤ r ∧ r ≤ r0 + 6 ∧ c0 ≤ c ∧ c ≤ c0 + 6 then finderModule (r - r0) (c - c0) else g r c

/-- The three finder patterns (R142). -/
def stampFinders (g : Cells) : Cells :=
  stampFinder (Config.size - 7) 0 (stampFinder 0 (Config.size - 7) (stampFinder 0 0 g))

/-- The three separators (R143), each a separator row and a separator column; the corner cells are the
spec's decision D19 (PRESUMED, unsafe: log entry 11). -/
def stampSeparators (g : Cells) : Cells := fun r c =>
  if (r = 7 ∧ c ≤ 7) ∨ (c = 7 ∧ r ≤ 7)
      ∨ (r = 7 ∧ Config.size - 8 ≤ c) ∨ (c = Config.size - 8 ∧ r ≤ 7)
      ∨ (r = Config.size - 8 ∧ c ≤ 7) ∨ (c = 7 ∧ Config.size - 8 ≤ r) then .light
  else g r c

/-- The module of a timing pattern at index `i` (R144). -/
def timingModule (i : Nat) : Module := if i % 2 = 0 then .dark else .light

/-- The two timing patterns (R144); their extent is the spec's decision D20 (PRESUMED, unsafe: log
entry 11). -/
def stampTiming (g : Cells) : Cells := fun r c =>
  if r = 6 ∧ 8 ≤ c ∧ c ≤ Config.size - 9 then timingModule c
  else if c = 6 ∧ 8 ≤ r ∧ r ≤ Config.size - 9 then timingModule r
  else g r c

/-- The dark module (R145); its row rests on `VERSION` (PRESUMED, unsafe: log entry 11). -/
def stampDarkModule (g : Cells) : Cells := fun r c =>
  if r = 4 * params.version + 9 ∧ c = 8 then .dark else g r c

/-- The grid `STR` makes, stamped in the source's order (R140, R146). -/
def structuralGrid : Grid :=
  Grid.ofCells fun r c =>
    stampDarkModule (stampTiming (stampSeparators (stampFinders allocated))) r.val c.val

/-- The body of `STR` (R140). -/
def strBody (s : State) : State := { s with grid := structuralGrid, stage := .structured }

/-- `STR`, legal when `STAGE = 3` (R140). -/
def execStr (s : State) : Result := accept .redundant (fun s => .next (strBody s)) s

/-! ### `PLC` -/

/-- The cells of one column pair in visiting order (R148): at each row the right column before the
left. -/
def pairCells (up : Bool) (right : Nat) : List (Fin 33 × Fin 33) :=
  (List.finRange 33).flatMap fun t =>
    let r := if up then t.rev else t
    [(r, Fin.ofNat 33 right), (r, Fin.ofNat 33 (right - 1))]

/-- The loop of R148 from column `right` on; `fuel` bounds the number of pairs. -/
def scanFrom : (fuel right : Nat) → (up : Bool) → List (Fin 33 × Fin 33)
  | 0, _, _ => []
  | fuel + 1, right, up =>
    if 1 ≤ right then
      let right' := if right = 6 then 5 else right
      pairCells up right' ++ scanFrom fuel (right' - 2) (!up)
    else []

/-- `ORDER` (R148). -/
def scanOrder : List (Fin 33 × Fin 33) := scanFrom Config.size (Config.size - 1) true

/-- The module of a data bit (R149). -/
def bitModule (b : Bool) : Module := if b then .dark else .light

/-- Write the next unconsumed bit into each Unset cell met, until the bits are used up (R147, R149). -/
def placeBits : List (Fin 33 × Fin 33) → BitSeq → Grid → Grid
  | [], _, g => g
  | _ :: _, [], g => g
  | p :: ps, b :: bs, g =>
    if g.cell p.1 p.2 = .unset then placeBits ps bs (g.setCell p.1 p.2 (bitModule b))
    else placeBits ps (b :: bs) g

/-- Every cell still Unset becomes Light (R150). -/
def zeroFill (g : Grid) : Grid :=
  Grid.ofCells fun r c => if g.cell r c = .unset then .light else g.cell r c

/-- The body of `PLC` (R147). -/
def plcBody (s : State) : State :=
  { s with grid := zeroFill (placeBits scanOrder s.bits s.grid), stage := .placed }

/-- `PLC`, legal when `STAGE = 4` (R147). -/
def execPlc (s : State) : Result := accept .structured (fun s => .next (plcBody s)) s

end Sys2Proof.Machine
end

