-- ==== Sys2Proof/Machine/Mask.lean ====
section
/-! DEFINITION. The mask-pattern evaluator with penalty scoring: `MSK` (R160 to R169). The score of a
candidate is computed without writing `GRID`, the form R36 and R167 allow. -/

namespace Sys2Proof.Machine

/-- `eligible(r, c)` (R161): outside the three 9 by 9 corner squares, row 6 and column 6. The squares'
places are the spec's decision D21 (PRESUMED, unsafe: log entry 11). -/
def eligible (r c : Nat) : Bool :=
  !(decide (r ≤ 8) && decide (c ≤ 8))
    && !(decide (r ≤ 8) && decide (Config.size - 9 ≤ c))
    && !(decide (Config.size - 9 ≤ r) && decide (c ≤ 8))
    && r != 6 && c != 6

/-- `xor 1` on a module (R163). `MSK` never flips an Unset cell: it stops on a grid that holds one. -/
def flipModule : Module → Module
  | .light => .dark
  | .dark => .light
  | .unset => .unset

/-- `applyMask(G, k)` for the predicate of candidate `k` (R163). -/
def applyMask (flips : Nat → Nat → Bool) (g : Grid) : Grid :=
  Grid.ofCells fun r c =>
    if eligible r.val c.val && flips r.val c.val then flipModule (g.cell r c) else g.cell r c

/-- What a maximal run of length `n` adds to the penalty (R164). -/
def runPenalty (n : Nat) : Nat := if 5 ≤ n then n - 2 else 0

/-- The penalty of a line whose run of `m`, `n` cells long so far, goes on into the given cells
(R164). -/
def runsPenalty (m : Module) (n : Nat) : List Module → Nat
  | [] => runPenalty n
  | x :: xs => if x = m then runsPenalty m (n + 1) xs else runPenalty n + runsPenalty x 1 xs

/-- `linePenalty` (R164). -/
def linePenalty : List Module → Nat
  | [] => 0
  | x :: xs => runsPenalty x 1 xs

/-- `penalty(G)` (R164): every row and every column independently. -/
def penalty (g : Grid) : Nat :=
  ((List.finRange 33).map fun r => linePenalty (g.row r)).sum
    + ((List.finRange 33).map fun c => linePenalty (g.col c)).sum

/-- `PEN[0..7]` (R160): every candidate scored on a mask of the same grid (R167), without
writing `GRID` (DEDUCED, safe: log entry 15). -/
def scores (flips : Fin 8 → Nat → Nat → Bool) (g : Grid) : Vector (BitVec 16) 8 :=
  Vector.ofFn fun k => BitVec.ofNat 16 (penalty (applyMask (flips k) g))

/-- `best` (R160, R165): the first candidate with the least score. -/
def bestMask (pen : Vector (BitVec 16) 8) : Fin 8 :=
  [1, 2, 3, 4, 5, 6, 7].foldl (fun (best k : Fin 8) => if pen[k] < pen[best] then k else best) 0

/-- The registers after `MSK` for a table of mask predicates (R11, R160, R166). -/
def maskedState (flips : Fin 8 → Nat → Nat → Bool) (s : State) : State :=
  let pen := scores flips s.grid
  let best := bestMask pen
  { s with
    pen := pen
    grid := applyMask (flips best) s.grid
    maskSel := BitVec.ofNat 3 best.val
    stage := .done }

/-- The body of `MSK` (R160), defined on binary grids only (R163; DESIGN CHOICE, safe: log entry
5). -/
def mskBody (s : State) : Result :=
  if s.grid.binary then .next (maskedState params.maskFn s) else .fault .maskOfUnsetGrid

/-- `MSK`, legal when `STAGE = 5` (R160). -/
def execMsk (s : State) : Result := accept .placed mskBody s

end Sys2Proof.Machine
end

