-- ==== Sys2Proof/Machine/Control.lean ====
section
/-! DEFINITION. The control commands: `NOP` (R181), `GEN` (R182), `CLR` (R183). -/

namespace Sys2Proof.Machine

/-- `NOP` (R181): accepted at every stage, changes nothing; ignored while an error is recorded, "which
is the same thing". -/
def execNop (s : State) : Result := .next s

/-- The body of `GEN` (R182): the six stage bodies in order, stopping at the first error. -/
def genBody (s : State) : Result :=
  let s1 := clsBody s
  if s1.err ≠ .noError then .next s1
  else
    let s2 := encBody s1
    if s2.err ≠ .noError then .next s2
    else mskBody (plcBody (strBody (redBody s2)))

/-- `GEN`, legal when `STAGE = 0` (R182). -/
def execGen (s : State) : Result := accept .idle genBody s

/-- `CLR` (R183), legal always, the only command that is carried out while an error is recorded. -/
def execClr (s : State) : Result := .next (clearResults s)

end Sys2Proof.Machine
end

