-- ==== Sys2Proof/Machine/Dispatch.lean ====
section
/-! DEFINITION. The dispatch of a command to its meaning (R71), one arm per command. -/

namespace Sys2Proof.Machine

def exec (i : Instr) (s : State) : Host.Outcome State Fault Refusal :=
  match i with
  | .nop => Sys2Proof.Machine.execNop s
  | .cls => Sys2Proof.Machine.execCls s
  | .enc => Sys2Proof.Machine.execEnc s
  | .red => Sys2Proof.Machine.execRed s
  | .str => Sys2Proof.Machine.execStr s
  | .plc => Sys2Proof.Machine.execPlc s
  | .msk => Sys2Proof.Machine.execMsk s
  | .gen => Sys2Proof.Machine.execGen s
  | .clr => Sys2Proof.Machine.execClr s

end Sys2Proof.Machine
end

