-- ==== Sys2Proof/Machine/HostPort.lean ====
section
/-! DEFINITION. The host interface: a host read, a host write, a word written to `CMD` (R184), and the
reset input (R230). Each is one indivisible step (R60). -/

namespace Sys2Proof.Machine

/-- Command acceptance (R184): the word is decoded at the moment of the write (R64); `CLR` is always
carried out, a word that encodes no command is `rejectWord`, and each command's meaning holds the
remaining tests. -/
def issueWord (w : Word) (s : State) : Result :=
  match decode w with
  | .ok i => exec i s
  | .error _ => .next (rejectWord s)

/-- `MemWrite(a, 1, v)` (R16, R33, R51, R53). -/
def memWrite (a : Addr) (v : Word) (s : State) : Result :=
  match regAt a with
  | some .cmd => issueWord v s
  | some r => .next (writeReg r v s)
  | none => .next s

/-- A host read: the word read goes to the host, and no register changes (R54). -/
def hostRead (a : Addr) (s : State) : State := { s with reads := s.reads ++ [memRead a s] }

/-- The reset input, asserted and released (R230): every register as after reset (R39), each `TEXT`
cell a free value (DESIGN CHOICE, safe: log entry 2). The host's side of the interface is not reset. -/
def resetInput (s : State) : State :=
  { State.reset with
    text := Vector.ofFn fun i => Config.textAfterReset s.resets i.val
    host := s.host
    reads := s.reads
    resets := s.resets + 1 }

/-- One event at the host interface (R63). -/
def serve (e : HostEvent) (s : State) : Result :=
  match e with
  | .read a => .next (hostRead a s)
  | .write a v => memWrite a v s
  | .reset => .next (resetInput s)

end Sys2Proof.Machine
end

