-- ==== Sys2Proof/Machine/Step.lean ====
section
/-! DEFINITION. One step of the machine: the oldest event at the host interface is answered (R60, R63).
QRSYM fetches no instructions (R35): a command is the word of a host write to `CMD`. -/

namespace Sys2Proof.Machine

/-- Answer the next host event; with none pending the block is idle and holds its state (R214;
DEDUCED, safe: log entry 7). -/
def step (s : State) : Host.Outcome State Fault Refusal :=
  match s.host with
  | [] => .next s
  | e :: rest => serve e { s with host := rest }

/-- The state whose next step is the host's write of the command word `w` to `CMD` (DESIGN CHOICE,
safe for one host: log entry 3). -/
def State.withFetchWord (s : State) (nbits w : Nat) : State :=
  { s with host := .write 0x000 (BitVec.ofNat 16 (w % 2 ^ nbits)) :: s.host }

end Sys2Proof.Machine
end

