-- ==== Sys2Proof/Machine/HostProgram.lean ====
section
/-! DEFINITION. The lines of a host program and the host accesses each stands for (R83). -/

namespace Sys2Proof.Machine

/-- The accesses of a command line (R83): the command's word written to `CMD`. -/
def commandLine (i : Instr) : List HostEvent := [.write (regAddr .cmd) (encode i)]

/-- The value `LVL` writes (R76, R83). -/
def levelValue : LevelName → Word
  | .l => 0
  | .m => 1
  | .q => 2
  | .h => 3

/-- The value `REQ` writes (R74, R83). -/
def requestValue : RequestName → Word
  | .auto => 0
  | .named m => (modeCode m).setWidth 16

/-- The `TEXT` writes of the characters from index `i` on (R58, R83). -/
def textWrites : Nat → List Byte → List HostEvent
  | _, [] => []
  | i, c :: cs => .write (BitVec.ofNat 12 (0x100 + i)) (c.setWidth 16) :: textWrites (i + 1) cs

/-- The host accesses of a line (R83). -/
def expandLine : Line → List HostEvent
  | .wr r v => [.write (regAddr r) v]
  | .rd r => [.read (regAddr r)]
  | .cmd i => commandLine i
  | .text cs => textWrites 0 cs ++ [.write (regAddr .tlen) (BitVec.ofNat 16 cs.length)]
  | .lvl v => [.write (regAddr .level) (levelValue v)]
  | .req r => [.write (regAddr .modeReq) (requestValue r)]
  | .run => [Instr.cls, .enc, .red, .str, .plc, .msk].flatMap commandLine

/-- The host accesses of a program, in order (R63, R83). -/
def expandProgram (ls : List Line) : List HostEvent := ls.flatMap expandLine

end Sys2Proof.Machine
end

