-- ==== Sys2Proof/Safety.lean ====
section
/-! DEFINITION. What counts as a good state and a safe step, in the terms the claims use: the results
are at every stage the ones the operands give (R3, R26 to R30, R37 to R39), and a recorded error has its
cause in the state (R200 to R204). -/

namespace Sys2Proof.Machine

/-- `PEN` and `MASK_SEL` as reset and `CLR` leave them (R39). -/
def NoScores (s : State) : Prop := s.pen = Vector.replicate 8 0 ∧ s.maskSel = 0

/-- The data sequence `ENC` makes of the operands is `d` (R104). -/
def EncodesTo (s : State) (d : BitSeq) : Prop := encodeText s.mode s.level s.tlen (chars s) = .ok d

/-- The grid `PLC` leaves for a bit stream (R147). -/
def placedGrid (b : BitSeq) : Grid := zeroFill (placeBits scanOrder b structuralGrid)

/-- `MODE` at each stage: 0 before `CLS`, then the mode it chose for a non-empty text (R25, R103). -/
def ModeConsistent (s : State) : Prop :=
  if s.stage = .idle then s.mode = 0 else s.tlen ≠ 0 ∧ s.mode = chosenMode s

/-- `BITS` at each stage (R26, R30): empty, the data sequence, the data and redundancy sequence. -/
def BitsConsistent (s : State) : Prop :=
  match s.stage with
  | .idle => s.bits = []
  | .classified => s.bits = []
  | .encoded => EncodesTo s s.bits
  | .redundant => ∃ d, EncodesTo s d ∧ s.bits = appendRedundancy (params.nred s.level) d
  | .structured => ∃ d, EncodesTo s d ∧ s.bits = appendRedundancy (params.nred s.level) d
  | .placed => ∃ d, EncodesTo s d ∧ s.bits = appendRedundancy (params.nred s.level) d
  | .done => ∃ d, EncodesTo s d ∧ s.bits = appendRedundancy (params.nred s.level) d

/-- `GRID` at each stage (R27, R30): Unset, structural, placed, masked. -/
def GridConsistent (s : State) : Prop :=
  match s.stage with
  | .idle => s.grid = Grid.allUnset
  | .classified => s.grid = Grid.allUnset
  | .encoded => s.grid = Grid.allUnset
  | .redundant => s.grid = Grid.allUnset
  | .structured => s.grid = structuralGrid
  | .placed => s.grid = placedGrid s.bits
  | .done => s.grid = applyMask (params.maskFn (bestMask s.pen)) (placedGrid s.bits)

/-- `PEN` and `MASK_SEL` at each stage (R28, R29): 0 before `MSK`, then the scores on the unmasked grid
and the first least of them. -/
def ScoresConsistent (s : State) : Prop :=
  if s.stage = .done then
    s.pen = scores params.maskFn (placedGrid s.bits) ∧ s.maskSel = BitVec.ofNat 3 (bestMask s.pen).val
  else NoScores s

/-- THE INVARIANT: every result register holds what the pipeline up to `STAGE` makes of the operand
registers (R3, R37). -/
def Consistent (s : State) : Prop :=
  ModeConsistent s ∧ BitsConsistent s ∧ GridConsistent s ∧ ScoresConsistent s

/-- The recorded error has its cause in the state (R200 to R204); `E_SEQ` and `E_CMD` leave no trace but
their code. -/
def ErrorHasCause (s : State) : Prop :=
  match s.err with
  | .noError => True
  | .eEmpty => s.stage = .idle ∧ s.tlen = 0
  | .eMode => s.stage = .classified ∧ encodeText s.mode s.level s.tlen (chars s) = .error .eMode
  | .eChar => s.stage = .classified ∧ encodeText s.mode s.level s.tlen (chars s) = .error .eChar
  | .eOverflow => s.stage = .classified ∧ encodeText s.mode s.level s.tlen (chars s) = .error .eOverflow
  | .eSeq => True
  | .eCmd => True

/-- A safe step: it answers a next state. -/
def SafeStep (s : State) : Prop := ∃ t, step s = .next t

end Sys2Proof.Machine
end

