-- ==== Sys2Proof/Certificates/Slice0/Obligations.lean ====
section
/-! DEFINITION. The statements for the provers. `Sys2Proof.Claims` holds the terms they are written in,
each from the rule it cites and not from the model's own function for it. -/

namespace Sys2Proof.Claims

open Sys2Proof.Machine

/-- A decimal digit's code (R78, R100). -/
def DigitCode (c : Byte) : Prop := 0x30 ≤ c.toNat ∧ c.toNat ≤ 0x39

/-- The codes of the 45 symbols in the order of the listing `0-9 A-Z space $ % * + - . / :` (R77,
R78). -/
def listing : List Nat :=
  (List.range 10).map (0x30 + ·) ++ (List.range 26).map (0x41 + ·)
    ++ [0x20, 0x24, 0x25, 0x2A, 0x2B, 0x2D, 0x2E, 0x2F, 0x3A]

/-- Every character of the text belongs to the mode's set (R106). Kanji has no encoder (R111). -/
def Covers (m : Mode) (t : List Byte) : Prop :=
  match m with
  | .numeric => ∀ c ∈ t, DigitCode c
  | .alphanumeric => ∀ c ∈ t, c.toNat ∈ listing
  | .byte => True
  | .kanji => False

/-- The digit value of the character at index `i` (R100). -/
def digitAt (t : List Byte) (i : Nat) : Nat := (t.getD i 0).toNat - 0x30

/-- The index, in the listing, of the character at index `i` (R77). -/
def indexAt (t : List Byte) (i : Nat) : Nat := listing.idxOf (t.getD i 0).toNat

/-- The payload of a text, group by group (R108, R109, R110). -/
def payloadBits (m : Mode) (t : List Byte) : BitSeq :=
  let n := t.length
  match m with
  | .numeric =>
    ((List.range (n / 3)).flatMap fun k =>
        bitsOf (100 * digitAt t (3 * k) + 10 * digitAt t (3 * k + 1) + digitAt t (3 * k + 2)) 10)
      ++ (if n % 3 = 2 then bitsOf (10 * digitAt t (n - 2) + digitAt t (n - 1)) 7
        else if n % 3 = 1 then bitsOf (digitAt t (n - 1)) 4 else [])
  | .alphanumeric =>
    ((List.range (n / 2)).flatMap fun k => bitsOf (45 * indexAt t (2 * k) + indexAt t (2 * k + 1)) 11)
      ++ (if n % 2 = 1 then bitsOf (indexAt t (n - 1)) 6 else [])
  | .byte => (List.range n).flatMap fun i => bitsOf (t.getD i 0).toNat 8
  | .kanji => []

/-- The payload length of `n` characters (R108, R109, R110). -/
def payloadLength (m : Mode) (n : Nat) : Nat :=
  match m with
  | .numeric => 10 * (n / 3) + (if n % 3 = 2 then 7 else if n % 3 = 1 then 4 else 0)
  | .alphanumeric => 11 * (n / 2) + 6 * (n % 2)
  | .byte => 8 * n
  | .kanji => 0

/-- The header length (R107): 14, 13 or 12 bits. -/
def headerLength : Mode → Nat
  | .numeric => 14
  | .alphanumeric => 13
  | .byte => 12
  | .kanji => 12

/-- `hp` (R112): header plus payload. -/
def hp (m : Mode) (n : Nat) : Nat := headerLength m + payloadLength m n

/-- The largest `TLEN` that fits, by mode and level, from the table of R117. -/
def longestText (m : Mode) (level : Byte) : Nat :=
  match m, level.toNat with
  | .numeric, 0 => 187
  | .numeric, 2 => 111
  | .numeric, 3 => 82
  | .numeric, _ => 149
  | .alphanumeric, 0 => 114
  | .alphanumeric, 2 => 67
  | .alphanumeric, 3 => 50
  | .alphanumeric, _ => 90
  | .byte, 0 => 78
  | .byte, 2 => 46
  | .byte, 3 => 34
  | .byte, _ => 62
  | .kanji, _ => 0

/-- The filler bytes 0xEC and 0x11 as the bit strings of R80. -/
def fillerBits (k : Nat) : BitSeq :=
  if k % 2 = 0 then [true, true, true, false, true, true, false, false]
  else [false, false, false, true, false, false, false, true]

/-- The padded data sequence (R104, R107, R113 to R116): header, payload, terminator, alignment zeros,
filler bytes. -/
def paddedSequence (m : Mode) (cap : Nat) (t : List Byte) : BitSeq :=
  let h := hp m t.length
  let z := min 4 (cap - h)
  let a := (8 - (h + z) % 8) % 8
  bitsOf (modeCode m).toNat 4 ++ bitsOf t.length (headerLength m - 4) ++ payloadBits m t
    ++ List.replicate z false ++ List.replicate a false
    ++ (List.range ((cap - (h + z + a)) / 8)).flatMap fillerBits

/-- The stage at which a command is legal and the stage it leads to (R71, R180); none for `NOP` and
`CLR`, which are legal always. -/
def transition : Instr → Option (Stage × Stage)
  | .cls => some (.idle, .classified)
  | .enc => some (.classified, .encoded)
  | .red => some (.encoded, .redundant)
  | .str => some (.redundant, .structured)
  | .plc => some (.structured, .placed)
  | .msk => some (.placed, .done)
  | .gen => some (.idle, .done)
  | .nop => none
  | .clr => none

/-- The word encodes no command (R72). -/
def IllegalWord (w : Word) : Prop := w.toNat / 16 ≠ 0 ∨ 9 ≤ w.toNat % 16

/-- The commands of a list one after the other, stopping where one stops the machine. -/
def issueAll : List Instr → State → Result
  | [], s => .next s
  | i :: is, s =>
    match exec i s with
    | .next t => issueAll is t
    | .fault f => .fault f
    | .refused r => .refused r

/-- The address is that of an operand register (R51, "RW*"). -/
def OperandAddr (a : Addr) : Prop :=
  a = 0x003 ∨ a = 0x004 ∨ a = 0x005 ∨ (0x100 ≤ a.toNat ∧ a.toNat ≤ 0x1FE)

/-- The address is reserved (R51, R53). -/
def ReservedAddr (a : Addr) : Prop :=
  (0x00B ≤ a.toNat ∧ a.toNat ≤ 0x00F) ∨ (0x018 ≤ a.toNat ∧ a.toNat ≤ 0x0FF) ∨ a.toNat = 0x1FF
    ∨ (0x25A ≤ a.toNat ∧ a.toNat ≤ 0x3FF) ∨ 0x841 ≤ a.toNat

/-- The value of `STAGE`, in the numerals of the table of R30. -/
def stageNumber : Stage → Nat
  | .idle => 0
  | .classified => 1
  | .encoded => 2
  | .redundant => 3
  | .structured => 4
  | .placed => 5
  | .done => 6

/-- The value of `ERR`, in the numerals of the table of R200. -/
def errorNumber : ErrCode → Nat
  | .noError => 0
  | .eMode => 1
  | .eEmpty => 2
  | .eOverflow => 3
  | .eChar => 4
  | .eSeq => 5
  | .eCmd => 6

/-- The value `CW[j]` of the codeword window over a bit sequence (R56): a whole group of 8 bits, the bits
of a partial last group in the high positions, 0 beyond. -/
def windowNumber (b : BitSeq) (j : Nat) : Nat :=
  let count := if j < b.length / 8 then 8 else if j = b.length / 8 then b.length % 8 else 0
  ((List.range count).map fun i => (b.getD (8 * j + i) false).toNat * 2 ^ (7 - i)).sum

/-- The penalty of a line as the sum over its maximal runs of identical module value (R164). -/
def runsSum (line : List Module) : Nat :=
  ((line.splitBy (· == ·)).map fun run => if 5 ≤ run.length then run.length - 2 else 0).sum

/-- The right column of pair `k` (R148): 32, 30, ..., 8, then 5, 3, 1. -/
def pairRight (k : Nat) : Nat := if k ≤ 12 then 32 - 2 * k else 31 - 2 * k

/-- The module of a cell after `STR`, from R142 to R145: the finder at offsets from each of its three
origins, the separator lines, the timing lines, the dark module. -/
def structuralModule (r c : Nat) : Module :=
  let finder (i j : Nat) : Module :=
    if i = 0 ∨ i = 6 ∨ j = 0 ∨ j = 6 ∨ ((i = 2 ∨ i = 3 ∨ i = 4) ∧ (j = 2 ∨ j = 3 ∨ j = 4)) then .dark
    else .light
  if r ≤ 6 ∧ c ≤ 6 then finder r c
  else if r ≤ 6 ∧ 26 ≤ c then finder r (c - 26)
  else if 26 ≤ r ∧ c ≤ 6 then finder (r - 26) c
  else if r ≤ 7 ∧ (c ≤ 7 ∨ 25 ≤ c) then .light
  else if 25 ≤ r ∧ c ≤ 7 then .light
  else if r = 25 ∧ c = 8 then .dark
  else if r = 6 then (if c % 2 = 0 then .dark else .light)
  else if c = 6 then (if r % 2 = 0 then .dark else .light)
  else .unset

/-- Two states agree on every register but the `TEXT` cells at or above `TLEN` (R234). -/
def SameSymbol (s t : State) : Prop :=
  s.tlen = t.tlen ∧ s.level = t.level ∧ s.modeReq = t.modeReq
    ∧ (∀ i : Fin 255, i.val < s.tlen.toNat → s.text[i] = t.text[i])
    ∧ s.mode = t.mode ∧ s.bits = t.bits ∧ s.grid = t.grid ∧ s.pen = t.pen ∧ s.maskSel = t.maskSel
    ∧ s.stage = t.stage ∧ s.err = t.err

/-- The step answers a write of the `CLR` word or the reset input. -/
def ClearsOrResets (s : State) : Prop :=
  ∃ rest, s.host = .write 0x000 0x0008 :: rest ∨ s.host = .reset :: rest

/-- The count of a grid's cells that hold `m`. -/
def countCells (g : Grid) (m : Module) : Nat :=
  ((List.finRange 33).flatMap fun r => (List.finRange 33).map fun c => g.cell r c).count m

end Sys2Proof.Claims

open Sys2Proof Sys2Proof.Machine Sys2Proof.Claims

/-! ### Encoding and acceptance -/

/-- The nine command words of R71, written out bit by bit from R70: `rsv` twelve zeros, then `op`. -/
def Obligations.CommandWordsDecode : Prop :=
  decode 0b0000000000000000#16 = .ok .nop ∧ decode 0b0000000000000001#16 = .ok .cls
    ∧ decode 0b0000000000000010#16 = .ok .enc ∧ decode 0b0000000000000011#16 = .ok .red
    ∧ decode 0b0000000000000100#16 = .ok .str ∧ decode 0b0000000000000101#16 = .ok .plc
    ∧ decode 0b0000000000000110#16 = .ok .msk ∧ decode 0b0000000000000111#16 = .ok .gen
    ∧ decode 0b0000000000001000#16 = .ok .clr

/-- R70 to R72: decoding an encoded command gives it back, every word that decodes is the encoding of
what it decodes to, and the words that do not decode are exactly those with a reserved field or a
reserved operation code. -/
def Obligations.DecodeEncodeAgree : Prop :=
  (∀ i : Instr, decode (encode i) = .ok i)
    ∧ (∀ (w : Word) (i : Instr), decode w = .ok i → encode i = w)
    ∧ (∀ w : Word, (∃ r, decode w = .error r) ↔ IllegalWord w)

/-- A step whose oldest host event is a write to `CMD` of a word that decodes runs the decoded command,
after the event is taken off the queue (R33, R64, R184). -/
def Obligations.StepRunsDecodedCommand : Prop :=
  ∀ (s : State) (rest : List HostEvent) (w : Word) (i : Instr),
    s.host = .write 0x000 w :: rest → decode w = .ok i → step s = exec i { s with host := rest }

/-- R184 (spec decision D5), with R72, R205 and R206: the six steps of command acceptance, the first case
that applies decides. -/
def Obligations.CommandAcceptanceOrder : Prop :=
  ∀ (s : State) (rest : List HostEvent) (w : Word), s.host = .write 0x000 w :: rest →
    (w = 0x0008 → step s = exec .clr { s with host := rest })
    ∧ (w ≠ 0x0008 → s.err ≠ .noError → step s = .next { s with host := rest })
    ∧ (s.err = .noError → IllegalWord w → step s = .next { s with host := rest, err := .eCmd })
    ∧ (s.err = .noError → w = 0x0000 → step s = .next { s with host := rest })
    ∧ (∀ i need after, transition i = some (need, after) → w = encode i → s.err = .noError →
        (s.stage ≠ need → step s = .next { s with host := rest, err := .eSeq })
        ∧ (s.stage = need → step s = exec i { s with host := rest }
            ∧ ∀ t, step s = .next t →
                (t.err = .noError ∧ t.stage = after) ∨ (t.err ≠ .noError ∧ t.err ≠ .eSeq ∧ t.err ≠ .eCmd)))

/-- R209 (spec decision D16): while an error is recorded every command word but `CLR` is ignored, every
operand write is dropped, and every read is answered. -/
def Obligations.BlockedWhileErrorRecorded : Prop :=
  ∀ (s : State) (rest : List HostEvent), s.err ≠ .noError →
    (∀ w : Word, w ≠ 0x0008 → s.host = .write 0x000 w :: rest → step s = .next { s with host := rest })
    ∧ (∀ (a : Addr) (v : Word), a ≠ 0x000 → s.host = .write a v :: rest →
        step s = .next { s with host := rest })
    ∧ (∀ a : Addr, s.host = .read a :: rest →
        step s = .next { s with host := rest, reads := s.reads ++ [memRead a s] })

/-- R31 and R210: a recorded error is changed only by `CLR` and reset, and either leaves none. -/
def Obligations.ErrorLeftOnlyByClearOrReset : Prop :=
  ∀ s t : State, s.err ≠ .noError → step s = .next t →
    (¬ ClearsOrResets s → t.err = s.err) ∧ (ClearsOrResets s → t.err = .noError ∧ t.stage = .idle)

/-- R208 (spec decision D16): a command that raises an error changes `ERR` and nothing else; for `GEN`,
nothing else from when the failing stage began: from where `GEN` began if `CLS` raises there, from what
`CLS` left if it completes; a reserved word changes `ERR` only. -/
def Obligations.ErrorEntryChangesErrOnly : Prop :=
  (∀ (i : Instr) (s t : State), s.err = .noError → exec i s = .next t → t.err ≠ .noError →
    (i ≠ .gen → t = { s with err := t.err })
      ∧ (i = .gen → ∃ c : State, exec .cls s = .next c
          ∧ (c.err ≠ .noError → t = { s with err := t.err })
          ∧ (c.err = .noError → t = { c with err := t.err } ∧ t.stage = .classified)))
  ∧ ∀ (s : State) (rest : List HostEvent) (w : Word), s.host = .write 0x000 w :: rest →
    s.err = .noError → IllegalWord w → step s = .next { s with host := rest, err := .eCmd }

/-- R180 (spec decision D4): the transitions of `STAGE`. -/
def Obligations.StageTransitionTable : Prop :=
  ∀ (i : Instr) (s t : State), s.err = .noError → exec i s = .next t →
    (i = .nop → t.stage = s.stage ∧ t.err = .noError)
    ∧ (i = .clr → t.stage = .idle ∧ t.err = .noError)
    ∧ (∀ need after, transition i = some (need, after) →
        (s.stage ≠ need → t.stage = s.stage ∧ t.err = .eSeq)
        ∧ (s.stage = need → t.err = .noError → t.stage = after)
        ∧ (s.stage = need → t.err ≠ .noError →
            (i = .cls ∧ t.stage = .idle) ∨ (i = .enc ∧ t.stage = .classified)
              ∨ (i = .gen ∧ (t.stage = .idle ∨ t.stage = .classified))))

/-! ### Control commands -/

/-- R181 (spec decision D3): `NOP` changes nothing, at every stage and with an error recorded. -/
def Obligations.NopChangesNothing : Prop :=
  decode 0x0000 = .ok .nop ∧ ∀ s : State, exec .nop s = .next s

/-- R183 (spec decision D24): `CLR` is carried out in every state, clears every result register, the
stage and the error, keeps the operand registers, and opens the input lock. -/
def Obligations.ClrDiscardsResults : Prop :=
  decode 0x0008 = .ok .clr ∧ ∀ s : State, ∃ t : State,
    exec .clr s = .next t
      ∧ t = { s with mode := t.mode, bits := t.bits, grid := t.grid, pen := t.pen, maskSel := t.maskSel,
                     stage := t.stage, err := t.err }
      ∧ t.mode = 0 ∧ t.bits = [] ∧ memRead 0x009 t = 0
      ∧ (∀ r c : Fin 33, t.grid.cell r c = .unset) ∧ (∀ k : Fin 8, t.pen[k] = 0)
      ∧ t.maskSel = 0 ∧ t.stage = .idle ∧ t.err = .noError ∧ inputsOpen t = true

/-- R182 (spec decision D38): in every state, and on every error, `GEN` ends as the six stage commands
issued one after the other from the same state. -/
def Obligations.GenEqualsStageCommands : Prop :=
  decode 0x0007 = .ok .gen
    ∧ ∀ s : State, exec .gen s = issueAll [.cls, .enc, .red, .str, .plc, .msk] s

/-- `GEN` completes at `STAGE = 0` for every non-empty text its mode covers and its level holds, and
leaves the whole Symbol, the operands unchanged (R182, R185). -/
def Obligations.GenCompletes : Prop :=
  ∀ (s : State) (m : Mode), s.err = .noError → s.stage = .idle → s.tlen ≠ 0 →
    (s.modeReq = modeCode m ∨ (s.modeReq = 0 ∧ classify (chars s) = m)) →
    Covers m (chars s) → hp m s.tlen.toNat ≤ params.cap s.level →
    ∃ t : State, exec .gen s = .next t
      ∧ t = { s with mode := t.mode, bits := t.bits, grid := t.grid, pen := t.pen, maskSel := t.maskSel,
                     stage := t.stage }
      ∧ t.stage = .done ∧ t.mode = modeCode m
      ∧ t.bits = appendRedundancy (params.nred s.level) (paddedSequence m (params.cap s.level) (chars s))
      ∧ t.bits.length = params.cap s.level + 8 * params.nred s.level
      ∧ t.grid = applyMask (params.maskFn (bestMask t.pen)) (placedGrid t.bits)
      ∧ t.pen = scores params.maskFn (placedGrid t.bits)
      ∧ t.maskSel.toNat = (bestMask t.pen).val ∧ t.grid.binary = true

/-! ### `CLS` -/

/-- R103: `CLS` refuses an empty text with `E_EMPTY` (spec decision D12); otherwise it takes a non-zero
request unchecked (spec decision D9) or the classified mode's code, and nothing else changes but the
stage. -/
def Obligations.ClsChoosesMode : Prop :=
  decode 0x0001 = .ok .cls ∧ ∀ s : State, s.err = .noError → s.stage = .idle →
    (s.tlen = 0 → exec .cls s = .next { s with err := .eEmpty })
    ∧ (s.tlen ≠ 0 → s.modeReq ≠ 0 →
        exec .cls s = .next { s with mode := s.modeReq, stage := .classified })
    ∧ (s.tlen ≠ 0 → s.modeReq = 0 → Covers .numeric (chars s) →
        exec .cls s = .next { s with mode := 1, stage := .classified })
    ∧ (s.tlen ≠ 0 → s.modeReq = 0 → ¬ Covers .numeric (chars s) → Covers .alphanumeric (chars s) →
        exec .cls s = .next { s with mode := 2, stage := .classified })
    ∧ (s.tlen ≠ 0 → s.modeReq = 0 → ¬ Covers .alphanumeric (chars s) →
        exec .cls s = .next { s with mode := 4, stage := .classified })

/-- R102: the classification of a non-empty text, each of the three classes by what its characters are;
Kanji is never produced. -/
def Obligations.ClassificationRule : Prop :=
  ∀ t : List Byte, t ≠ [] →
    (classify t = .numeric ↔ ∀ c ∈ t, DigitCode c)
    ∧ (classify t = .alphanumeric ↔ (¬ ∀ c ∈ t, DigitCode c) ∧ ∀ c ∈ t, c.toNat ∈ listing)
    ∧ (classify t = .byte ↔ ∃ c ∈ t, c.toNat ∉ listing)
    ∧ classify t ≠ .kanji

/-- R77 and R101 (spec decision D11): the alphanumeric index of a code is its position in the listing,
none outside it; every digit is alphanumeric. -/
def Obligations.AlnumIndexIsListingPosition : Prop :=
  listing.length = 45 ∧ ∀ c : Byte,
    alnumIndex c = (if c.toNat ∈ listing then some (listing.idxOf c.toNat) else none)
      ∧ (DigitCode c → isAlnum c = true ∧ alnumIndex c = digitValue c)

/-! ### `ENC` -/

/-- R104, R107 to R110 and R113 to R116: for a text its mode covers and its level holds, `ENC` leaves
header, payload, terminator, alignment zeros and filler bytes, exactly the capacity long, and changes
nothing else but the stage. -/
def Obligations.EncBuildsSequence : Prop :=
  decode 0x0002 = .ok .enc ∧ ∀ (s : State) (m : Mode), s.err = .noError → s.stage = .classified →
    s.mode = modeCode m → Covers m (chars s) → hp m s.tlen.toNat ≤ params.cap s.level →
    exec .enc s =
        .next { s with bits := paddedSequence m (params.cap s.level) (chars s), stage := .encoded }
      ∧ (paddedSequence m (params.cap s.level) (chars s)).length = params.cap s.level
      ∧ (chars s).length = s.tlen.toNat

/-- R105, R106 and R112 (spec decisions D9, D13, D14): `ENC` checks mode, then characters, then capacity;
each error is raised exactly when its check is the first that fails, and nothing else changes. -/
def Obligations.EncRaisesFirstError : Prop :=
  ∀ s : State, s.err = .noError → s.stage = .classified →
    ((s.mode ≠ 1 ∧ s.mode ≠ 2 ∧ s.mode ≠ 4) ↔ exec .enc s = .next { s with err := .eMode })
    ∧ (∀ m : Mode, m ≠ .kanji → s.mode = modeCode m →
        (¬ Covers m (chars s) ↔ exec .enc s = .next { s with err := .eChar }))
    ∧ (∀ m : Mode, m ≠ .kanji → s.mode = modeCode m → Covers m (chars s) →
        (params.cap s.level < hp m s.tlen.toNat ↔ exec .enc s = .next { s with err := .eOverflow }))

/-- R106 and R204: with `MODE_REQ = 0` the classified mode always covers its text, so `ENC` after `CLS`
never raises `E_MODE` or `E_CHAR`. -/
def Obligations.ClassifiedModeCoversItsText : Prop :=
  ∀ s : State, s.err = .noError → s.stage = .idle → s.tlen ≠ 0 → s.modeReq = 0 →
    ∃ t u : State, exec .cls s = .next t ∧ t.err = .noError ∧ exec .enc t = .next u
      ∧ (u.err = .noError ∨ u.err = .eOverflow)

/-- The table of R117, which the spec derives from R107 to R112: a text of its mode's characters fits its
level up to the tabulated length and overflows above it. -/
def Obligations.LongestTextThatFits : Prop :=
  ∀ (s : State) (m : Mode), m ≠ .kanji → s.err = .noError → s.stage = .classified → s.mode = modeCode m →
    Covers m (chars s) →
    (s.tlen.toNat ≤ longestText m s.level →
        ∃ t, exec .enc s = .next t ∧ t.err = .noError ∧ t.stage = .encoded)
    ∧ (longestText m s.level < s.tlen.toNat → exec .enc s = .next { s with err := .eOverflow })

/-! ### `RED` -/

/-- R130, R131 and R133: `RED` keeps the whole groups of 8 data bits in place, appends the redundancy
codewords most-significant bit first, and changes nothing else but the stage. -/
def Obligations.RedAppendsRedundancy : Prop :=
  decode 0x0003 = .ok .red ∧ ∀ s : State, s.err = .noError → s.stage = .encoded →
    exec .red s = .next { s with
      bits := s.bits.take (8 * (s.bits.length / 8))
        ++ bytesToBits
            (redundancy ((List.range (s.bits.length / 8)).map (codeword s.bits)) (params.nred s.level))
      stage := .redundant }

/-- R132: redundancy cell `j` is the exclusive or of the data codewords whose position, counted from 0
(spec decision D36), is congruent to `j`; a cell no codeword folds into is 0. -/
def Obligations.RedundancyIsXorFold : Prop :=
  ∀ (data : List Byte) (nr : Nat), 0 < nr →
    (redundancy data nr).length = nr
      ∧ ∀ j, j < nr → (redundancy data nr).getD j 0 =
          ((List.range data.length).filter fun i => i % nr == j).foldl (fun x i => x ^^^ data.getD i 0) 0

/-- The lengths of R134, which the spec derives from R130, R7 and R8: from a full data sequence `RED`
leaves 720, 640, 576 or 512 bits, 640 for a level outside the set, never more than `BITS_MAX`. -/
def Obligations.RedLengths : Prop :=
  ∀ s : State, s.err = .noError → s.stage = .encoded → s.bits.length = params.cap s.level →
    ∃ t, exec .red s = .next t ∧ t.bits.length ≤ Config.bitsMax
      ∧ (s.level = 0 → t.bits.length = 720) ∧ (s.level = 1 → t.bits.length = 640)
      ∧ (s.level = 2 → t.bits.length = 576) ∧ (s.level = 3 → t.bits.length = 512)
      ∧ (3 < s.level.toNat → t.bits.length = 640)

/-! ### `STR` and `PLC` -/

/-- R140 to R145 (spec decisions D18, D19, D20): whatever the grid held, `STR` leaves the stamped cells
at their fixed coordinates and every other cell Unset, and changes nothing else but the stage. -/
def Obligations.StrStampsStructure : Prop :=
  decode 0x0004 = .ok .str ∧ ∀ s : State, s.err = .noError → s.stage = .redundant → ∃ t : State,
    exec .str s = .next t ∧ t = { s with grid := t.grid, stage := .structured }
      ∧ ∀ r c : Fin 33, t.grid.cell r c = structuralModule r.val c.val

/-- The counts of R146 and R151, which the spec derives: 118 Dark, 109 Light and 862 Unset cells, all 862
met by the scan. -/
def Obligations.StructuralCounts : Prop :=
  countCells structuralGrid .dark = 118 ∧ countCells structuralGrid .light = 109
    ∧ countCells structuralGrid .unset = 862
    ∧ (scanOrder.filter fun p => structuralGrid.cell p.1 p.2 == .unset).length = 862

/-- R148: the scan order in closed form. Pair `k` runs upward when `k` is even, at each row the right
column before the left; 1056 cells, none twice, none in column 6. -/
def Obligations.ScanOrderClosedForm : Prop :=
  scanOrder.length = 1056 ∧ scanOrder.Nodup ∧ (∀ p ∈ scanOrder, p.2.val ≠ 6)
    ∧ ∀ (k : Fin 16) (t : Fin 33) (side : Fin 2),
        (scanOrder.getD (66 * k.val + 2 * t.val + side.val) (0, 0)).1.val
            = (if k.val % 2 = 0 then 32 - t.val else t.val)
        ∧ (scanOrder.getD (66 * k.val + 2 * t.val + side.val) (0, 0)).2.val
            = pairRight k.val - side.val

/-- R147, R149 and R150: in every grid, the `k`-th Unset cell of the scan order takes bit `k` (Light
when the bits are used up), a cell that is not Unset keeps its module, every other Unset cell becomes
Light, no Unset cell remains, and nothing else changes but the stage. -/
def Obligations.PlcPlacesBitsInOrder : Prop :=
  decode 0x0005 = .ok .plc ∧ ∀ s : State, s.err = .noError → s.stage = .structured → ∃ t : State,
    exec .plc s = .next t ∧ t = { s with grid := t.grid, stage := .placed }
      ∧ (∀ r c : Fin 33, s.grid.cell r c ≠ .unset → t.grid.cell r c = s.grid.cell r c)
      ∧ (∀ (k : Nat) (p : Fin 33 × Fin 33),
          (scanOrder.filter fun q => s.grid.cell q.1 q.2 == .unset)[k]? = some p →
          t.grid.cell p.1 p.2 = if s.bits.getD k false then .dark else .light)
      ∧ (∀ r c : Fin 33, s.grid.cell r c = .unset → (r, c) ∉ scanOrder → t.grid.cell r c = .light)
      ∧ t.grid.binary = true

/-! ### `MSK` -/

/-- R160, R163, R165 and R166: on a binary grid `MSK` scores all eight candidates on the grid it starts
from, applies the first least permanently, and changes nothing else but the stage. The entries of the
mask table other than 0 and 5 are the spec's decision D22 (log entry 8). -/
def Obligations.MskScoresAndApplies : Prop :=
  decode 0x0006 = .ok .msk ∧ ∀ s : State, s.err = .noError → s.stage = .placed →
    s.grid.binary = true → ∃ (t : State) (best : Fin 8),
    exec .msk s = .next t
      ∧ t = { s with grid := t.grid, pen := t.pen, maskSel := t.maskSel, stage := .done }
      ∧ t.maskSel.toNat = best.val
      ∧ (∀ k : Fin 8, (t.pen[k]).toNat = penalty (applyMask (params.maskFn k) s.grid))
      ∧ (∀ k : Fin 8, t.pen[best] ≤ t.pen[k]) ∧ (∀ k : Fin 8, k < best → t.pen[best] < t.pen[k])
      ∧ t.grid = applyMask (params.maskFn best) s.grid
      ∧ penalty t.grid = (t.pen[best]).toNat
      ∧ applyMask (params.maskFn best) t.grid = s.grid

/-- The model's own stop (log entry 5): R163 defines mask application "on binary grids only", so at
`STAGE = 5` `MSK` stops by name on a grid that holds an Unset cell. No state that meets `Consistent` is
one: at `STAGE = 5` its grid is binary. -/
def Obligations.MskStopsOnUnsetCell : Prop :=
  ∀ s : State, s.stage = .placed →
    (s.err = .noError → (∃ r c : Fin 33, s.grid.cell r c = .unset) →
      exec .msk s = .fault .maskOfUnsetGrid)
    ∧ (Consistent s → s.grid.binary = true ∧ ∀ r c : Fin 33, s.grid.cell r c ≠ .unset)

/-- R163: a masked cell is flipped exactly when it is eligible and the predicate holds, for every
predicate and every binary grid, and the same mask twice gives back the grid. In every consistent state
the grid is binary at `STAGE = 5`. -/
def Obligations.MaskFlipsEligibleCells : Prop :=
  (∀ (flips : Nat → Nat → Bool) (g : Grid), g.binary = true →
    (∀ r c : Fin 33,
      ((eligible r.val c.val = true ∧ flips r.val c.val = true) →
        (g.cell r c = .light → (applyMask flips g).cell r c = .dark)
          ∧ (g.cell r c = .dark → (applyMask flips g).cell r c = .light))
      ∧ (¬ (eligible r.val c.val = true ∧ flips r.val c.val = true) →
        (applyMask flips g).cell r c = g.cell r c))
    ∧ (applyMask flips g).binary = true ∧ applyMask flips (applyMask flips g) = g)
  ∧ ∀ s : State, Consistent s → s.stage = .placed → s.grid.binary = true

/-- R161 (spec decision D21): the eligible cells. That they are 816 and that none of them is structural
is what the spec derives there from R161 and R146. -/
def Obligations.StructuralCellsNotEligible : Prop :=
  (∀ r c : Nat, eligible r c = true ↔
      ¬ (r ≤ 8 ∧ c ≤ 8) ∧ ¬ (r ≤ 8 ∧ 24 ≤ c) ∧ ¬ (24 ≤ r ∧ c ≤ 8) ∧ r ≠ 6 ∧ c ≠ 6)
    ∧ ((List.finRange 33).flatMap fun r =>
        (List.finRange 33).filter fun c => eligible r.val c.val).length = 816
    ∧ ∀ r c : Fin 33, structuralGrid.cell r c ≠ .unset → eligible r.val c.val = false

/-- R162: the mask predicates. Entries 0 and 5 are the source's; the others are the spec's decision D22
(log entry 8). -/
def Obligations.MaskPredicateTable : Prop :=
  ∀ r c : Nat,
    (params.maskFn 0 r c = true ↔ (r + c) % 2 = 0) ∧ (params.maskFn 1 r c = true ↔ r % 2 = 0)
    ∧ (params.maskFn 2 r c = true ↔ c % 3 = 0) ∧ (params.maskFn 3 r c = true ↔ (r + c) % 3 = 0)
    ∧ (params.maskFn 4 r c = true ↔ (r / 2 + c / 3) % 2 = 0)
    ∧ (params.maskFn 5 r c = true ↔ r * c % 2 + r * c % 3 = 0)
    ∧ (params.maskFn 6 r c = true ↔ (r * c % 2 + r * c % 3) % 2 = 0)
    ∧ (params.maskFn 7 r c = true ↔ ((r + c) % 2 + r * c % 3) % 2 = 0)

/-- R165: the selected candidate is the least index with the least score, for every list of scores. -/
def Obligations.BestMaskIsFirstMinimum : Prop :=
  ∀ pen : Vector (BitVec 16) 8,
    (∀ k : Fin 8, pen[bestMask pen] ≤ pen[k]) ∧ (∀ k : Fin 8, k < bestMask pen → pen[bestMask pen] < pen[k])

/-- R164: the penalty of every grid is the sum, over every row and every column independently, over the
maximal runs of identical module value of length at least 5, of the run length less 2. -/
def Obligations.PenaltySumsMaximalRuns : Prop :=
  ∀ g : Grid, penalty g =
    ((List.finRange 33).map fun r => runsSum ((List.finRange 33).map fun c => g.cell r c)).sum
      + ((List.finRange 33).map fun c => runsSum ((List.finRange 33).map fun r => g.cell r c)).sum

/-- The bound of R168, which the spec derives from R164: no score exceeds 2046, so the 16-bit `PEN`
registers hold every score exactly. -/
def Obligations.PenaltyFitsRegister : Prop :=
  ∀ g : Grid, penalty g ≤ 2046
    ∧ ∀ (flips : Fin 8 → Nat → Nat → Bool) (k : Fin 8),
        ((scores flips g)[k]).toNat = penalty (applyMask (flips k) g)

/-! ### Bits, codewords and parameters -/

/-- R15 (spec decision D10): `Bits(v, n)` is the `n` low-order bits of `v`, most significant first. -/
def Obligations.BitsPrimitive : Prop :=
  ∀ v n : Nat, (bitsOf v n).length = n
    ∧ (∀ i, i < n → (bitsOf v n).getD i false = decide (v / 2 ^ (n - 1 - i) % 2 = 1))
    ∧ (bitsOf v n).foldl (fun x b => 2 * x + b.toNat) 0 = v % 2 ^ n

/-- R55: eight consecutive bits grouped most-significant bit first, and the reverse expansion. -/
def Obligations.CodewordExpansion : Prop :=
  (∀ (s : BitSeq) (j : Nat),
      (codeword s j).toNat
        = ((List.range 8).map fun i => (s.getD (8 * j + i) false).toNat * 2 ^ (7 - i)).sum)
    ∧ (∀ (s : BitSeq) (j : Nat), 8 * j + 8 ≤ s.length →
        bitsOf (codeword s j).toNat 8 = (s.drop (8 * j)).take 8)
    ∧ (∀ (bs : List Byte) (j : Nat), j < bs.length → codeword (bytesToBits bs) j = bs.getD j 0)

/-- R7, R8, R9 and R74: capacities, redundancy counts, count widths, mode indicators. -/
def Obligations.ParameterTables : Prop :=
  params.cap 0 = 640 ∧ params.cap 1 = 512 ∧ params.cap 2 = 384 ∧ params.cap 3 = 288
    ∧ params.nred 0 = 10 ∧ params.nred 1 = 16 ∧ params.nred 2 = 24 ∧ params.nred 3 = 28
    ∧ (∀ v : Byte, 3 < v.toNat → params.cap v = 512 ∧ params.nred v = 16)
    ∧ params.ccw .numeric = 10 ∧ params.ccw .alphanumeric = 9 ∧ params.ccw .byte = 8
    ∧ params.ccw .kanji = 8
    ∧ bitsOf (modeCode .numeric).toNat 4 = [false, false, false, true]
    ∧ bitsOf (modeCode .alphanumeric).toNat 4 = [false, false, true, false]
    ∧ bitsOf (modeCode .byte).toNat 4 = [false, true, false, false]
    ∧ bitsOf (modeCode .kanji).toNat 4 = [true, false, false, false]

/-! ### The host interface -/

/-- R40 and R52 (spec decisions D25, D2): a host write to an operand register stores the low bits of the
word if and only if `STAGE = 0` and `ERR = 0`; otherwise nothing changes and no error is raised. -/
def Obligations.OperandWritesObeyLock : Prop :=
  ∀ (s : State) (rest : List HostEvent) (a : Addr) (v : Word), s.host = .write a v :: rest →
    ((s.stage = .idle ∧ s.err = .noError) →
      (a = 0x003 → step s = .next { s with host := rest, level := BitVec.ofNat 8 v.toNat })
      ∧ (a = 0x004 → step s = .next { s with host := rest, modeReq := BitVec.ofNat 4 v.toNat })
      ∧ (a = 0x005 → step s = .next { s with host := rest, tlen := BitVec.ofNat 8 v.toNat })
      ∧ (∀ i : Fin 255, a.toNat = 0x100 + i.val →
          step s = .next { s with host := rest, text := s.text.set i (BitVec.ofNat 8 v.toNat) }))
    ∧ (¬ (s.stage = .idle ∧ s.err = .noError) → OperandAddr a → step s = .next { s with host := rest })

/-- R53 (spec decision D30): a reserved address reads 0, and a write to a reserved address, to a read-only
register or to a locked operand register changes nothing and raises nothing. No write but one to `CMD`
raises an error. -/
def Obligations.ReservedAndReadOnlyAddresses : Prop :=
  ∀ (s : State) (a : Addr),
    (ReservedAddr a → memRead a s = 0)
    ∧ ∀ (rest : List HostEvent) (v : Word), s.host = .write a v :: rest → a ≠ 0x000 →
        (¬ (OperandAddr a ∧ s.stage = .idle ∧ s.err = .noError) → step s = .next { s with host := rest })
        ∧ ∃ t, step s = .next t ∧ t.err = s.err

/-- R54: a host read changes no register, whatever the address, and leaves what every address reads as;
a step that answers no reset changes a register only for a write to `CMD` or to an operand register whose
lock is open. The word read goes to the host's list of answers (log entry 3). -/
def Obligations.ReadsHaveNoSideEffect : Prop :=
  (∀ (s : State) (rest : List HostEvent) (a : Addr), s.host = .read a :: rest → ∃ t : State,
      step s = .next t ∧ t = { s with host := rest, reads := s.reads ++ [memRead a s] }
        ∧ ∀ b : Addr, memRead b t = memRead b s)
  ∧ (∀ (s t : State) (e : HostEvent) (rest : List HostEvent), s.host = e :: rest → e ≠ .reset →
      step s = .next t → t ≠ { s with host := rest, reads := t.reads } →
      (∃ v, e = .write 0x000 v)
        ∨ (s.stage = .idle ∧ s.err = .noError ∧ ∃ a v, e = .write a v ∧ OperandAddr a))

/-- R51, R52, R53: what each address of the map reads as, zero-extended. `STATUS` and `ERR` are in the
numerals of R30, R32 and R200. The clauses rest on these log entries: that `BLEN` is the length of `BITS`,
entry 4; that `VERSION` is 4 (spec decision D18), entry 11; the numerals of the error codes (spec decision
D16), entry 13. -/
def Obligations.RegisterReads : Prop :=
  ∀ s : State,
    memRead 0x000 s = 0
    ∧ (memRead 0x001 s).toNat = stageNumber s.stage + (if errorNumber s.err = 0 then 0 else 8)
        + (if stageNumber s.stage = 6 then 16 else 0)
    ∧ (memRead 0x002 s).toNat = errorNumber s.err ∧ (memRead 0x003 s).toNat = s.level.toNat
    ∧ (memRead 0x004 s).toNat = s.modeReq.toNat ∧ (memRead 0x005 s).toNat = s.tlen.toNat
    ∧ (memRead 0x006 s).toNat = s.mode.toNat ∧ memRead 0x007 s = 33 ∧ memRead 0x008 s = 4
    ∧ (s.bits.length ≤ 720 → (memRead 0x009 s).toNat = s.bits.length)
    ∧ (memRead 0x00A s).toNat = s.maskSel.toNat
    ∧ (∀ k : Fin 8, memRead (BitVec.ofNat 12 (0x010 + k.val)) s = s.pen[k])
    ∧ (∀ i : Fin 255, (memRead (BitVec.ofNat 12 (0x100 + i.val)) s).toNat = (s.text[i]).toNat)
    ∧ (∀ j : Fin 90, (memRead (BitVec.ofNat 12 (0x200 + j.val)) s).toNat = windowNumber s.bits j.val)
    ∧ (∀ r c : Fin 33, memRead (BitVec.ofNat 12 (0x400 + 33 * r.val + c.val)) s
        = match s.grid.cell r c with
          | .light => 0
          | .dark => 1
          | .unset => 2)
    ∧ (∀ a : Addr, ReservedAddr a → memRead a s = 0)

/-- R56 (spec decision D29): the codeword window, a partial last group in the high positions; after
`RED` on a full data sequence the data codewords stand where they stood and the redundancy codewords
follow them. In every consistent state `BLEN` is a multiple of 8, so no last group is partial. -/
def Obligations.CodewordWindow : Prop :=
  (∀ (s : State) (j : Fin 90),
      (memRead (BitVec.ofNat 12 (0x200 + j.val)) s).toNat = windowNumber s.bits j.val)
  ∧ (∀ s t : State, s.err = .noError → s.stage = .encoded → s.bits.length = params.cap s.level →
      exec .red s = .next t →
      (∀ j, j < params.cap s.level / 8 →
        memRead (BitVec.ofNat 12 (0x200 + j)) t = memRead (BitVec.ofNat 12 (0x200 + j)) s)
      ∧ (∀ j, j < params.nred s.level →
        (memRead (BitVec.ofNat 12 (0x200 + params.cap s.level / 8 + j)) t).toNat =
          ((redundancy ((List.range (params.cap s.level / 8)).map (codeword s.bits))
            (params.nred s.level)).getD j 0).toNat))
  ∧ ∀ s : State, Consistent s → s.bits.length % 8 = 0

/-- The `TEXT` line of R83: while the input lock is open, its host accesses leave exactly its characters
as the text and change nothing else but the text and `TLEN`. -/
def Obligations.TextLineLoadsText : Prop :=
  ∀ (s : State) (cs : List Byte), s.stage = .idle → s.err = .noError → cs.length ≤ 255 →
    s.host = expandLine (.text cs) → ∃ t : State,
    core.run (cs.length + 1) s = .next t ∧ chars t = cs ∧ t.tlen.toNat = cs.length
      ∧ t = { s with host := [], text := t.text, tlen := t.tlen }
      ∧ ∀ i : Fin 255, cs.length ≤ i.val → t.text[i] = s.text[i]

/-! ### Reset -/

/-- R39 and R230 (spec decision D24): the state after reset, and that the reset input brings every
register there from every state. Nothing is said of `TEXT`, which is unspecified after reset. The model's
own choices, log entry 2: reset keeps the host's queue and the answers to its reads, and a reset right
after a command's word stands for one in the middle of the command, which leaves nothing. -/
def Obligations.ResetValues : Prop :=
  (∀ s : State, s = State.reset ∨ (∃ (u : State) (rest : List HostEvent),
        u.host = .reset :: rest ∧ step u = .next s) →
      s.tlen = 0 ∧ s.level = 1 ∧ s.modeReq = 0 ∧ s.mode = 0 ∧ s.bits = []
        ∧ (∀ r c : Fin 33, s.grid.cell r c = .unset) ∧ (∀ k : Fin 8, s.pen[k] = 0) ∧ s.maskSel = 0
        ∧ s.stage = .idle ∧ s.err = .noError)
  ∧ (∀ (u : State) (rest : List HostEvent), u.host = .reset :: rest →
      ∃ t, step u = .next t ∧ t.host = rest ∧ t.reads = u.reads)
  ∧ (∀ (u v : State) (w : Word) (rest : List HostEvent), u.host = .write 0x000 w :: .reset :: rest →
      step u = .next v → step v = step { u with host := .reset :: rest })

/-! ### Invariants and rules of the whole machine -/

/-- The state after reset meets the invariant `Consistent`. -/
def Obligations.ConsistentAtReset : Prop := Consistent State.reset

/-- R3, R26 to R30 and R37: in every state whose result registers are what the pipeline up to `STAGE`
makes of the operand registers, every step, whatever the host does, leaves such a state. -/
def Obligations.StepKeepsConsistent : Prop :=
  ∀ s t : State, Consistent s → step s = .next t → Consistent t

/-- Every step from a consistent state answers a next state (R184, R233): no host access stops the
machine. -/
def Obligations.ConsistentStepIsSafe : Prop := ∀ s : State, Consistent s → SafeStep s

/-- The state after reset meets the invariant `ErrorHasCause`. -/
def Obligations.ErrorCauseAtReset : Prop := ErrorHasCause State.reset

/-- R200 to R204, R208 and R209: as long as an error is recorded, what caused it still stands in the
registers, and every step keeps it so. -/
def Obligations.StepKeepsErrorCause : Prop :=
  ∀ s t : State, ErrorHasCause s → step s = .next t → ErrorHasCause t

/-- R38(b) to (d), R150, R165 and R166 in every consistent state: from `STAGE = 5` on no cell is Unset
and every structural cell is as stamped; at `STAGE = 6` the selected score is the first least, the
penalty of the finished grid is that score, and the selected mask gives the unmasked grid again. -/
def Obligations.FinishedSymbolIsSound : Prop :=
  ∀ s : State, Consistent s →
    s.bits.length ≤ 720
    ∧ ((s.stage = .placed ∨ s.stage = .done) →
      s.grid.binary = true
        ∧ ∀ r c : Fin 33, structuralModule r.val c.val ≠ .unset →
            s.grid.cell r c = structuralModule r.val c.val)
    ∧ (s.stage = .done → ∃ best : Fin 8, s.maskSel.toNat = best.val
        ∧ (∀ k : Fin 8, s.pen[best] ≤ s.pen[k]) ∧ (∀ k : Fin 8, k < best → s.pen[best] < s.pen[k])
        ∧ penalty s.grid = (s.pen[best]).toNat
        ∧ applyMask (params.maskFn best) s.grid = placedGrid s.bits)

/-- R185 (spec decision D25): at `STAGE = 6` the symbol is binary; every stage command and `GEN` raises
`E_SEQ` there, `NOP` does nothing, operand writes are ignored, and no step but one that answers `CLR` or
reset changes anything but `ERR` and the host's side of the interface. -/
def Obligations.FinishedSymbolIsFrozen : Prop :=
  ∀ s : State, s.stage = .done →
    (Consistent s → s.grid.binary = true)
    ∧ (∀ (i : Instr) (rest : List HostEvent), s.err = .noError → transition i ≠ none →
        s.host = .write 0x000 (encode i) :: rest → step s = .next { s with host := rest, err := .eSeq })
    ∧ (∀ rest : List HostEvent, s.host = .write 0x000 (encode .nop) :: rest →
        step s = .next { s with host := rest })
    ∧ (∀ (a : Addr) (v : Word) (rest : List HostEvent), OperandAddr a → s.host = .write a v :: rest →
        step s = .next { s with host := rest })
    ∧ (∀ t : State, ¬ ClearsOrResets s → step s = .next t →
        t = { s with host := t.host, reads := t.reads, err := t.err })

/-- R37 (spec decision D25): from the moment `STAGE` leaves 0 until the next `CLR` or reset, the operand
registers and `MODE` cannot change, and `GRID` changes only by `STR`, `PLC` and `MSK`; at `STAGE = 6`
nothing changes but `ERR` and the host's side of the interface. -/
def Obligations.OperandsStableDuringRun : Prop :=
  ∀ s t : State, s.stage ≠ .idle → ¬ ClearsOrResets s → step s = .next t →
    t.stage ≠ .idle ∧ t.text = s.text ∧ t.tlen = s.tlen ∧ t.level = s.level ∧ t.modeReq = s.modeReq
      ∧ t.mode = s.mode
      ∧ (t.grid ≠ s.grid → ∃ rest, s.host = .write 0x000 (encode .str) :: rest
          ∨ s.host = .write 0x000 (encode .plc) :: rest ∨ s.host = .write 0x000 (encode .msk) :: rest)
      ∧ (s.stage = .done → t = { s with host := t.host, reads := t.reads, err := t.err })

/-- R234, with R21: two consistent states at `STAGE = 0` with `ERR = 0` that agree on
`TEXT[0..TLEN-1]`, `TLEN`, `LEVEL` and `MODE_REQ`, given the same command words, both end, in states that
agree on every register but the `TEXT` cells at or above `TLEN`. -/
def Obligations.UnusedTextIsNeverSeen : Prop :=
  ∀ (s t : State) (ws : List Word), Consistent s → Consistent t →
    s.stage = .idle → t.stage = .idle → s.err = .noError → t.err = .noError →
    s.tlen = t.tlen → s.level = t.level → s.modeReq = t.modeReq →
    (∀ i : Fin 255, i.val < s.tlen.toNat → s.text[i] = t.text[i]) →
    ∃ s' t' : State,
      core.run ws.length { s with host := ws.map fun w => .write 0x000 w } = .next s'
      ∧ core.run ws.length { t with host := ws.map fun w => .write 0x000 w } = .next t'
      ∧ SameSymbol s' t'
end

