-- ==== Sys2Proof/Laws/State.lean ====
section
/-! SUPPORT. What each named update of the state does to each field, by `rfl`. -/

namespace Sys2Proof.Machine

/-! ### `raise` -/

@[simp] theorem raise_text (e : ErrCode) (s : State) : (raise e s).text = s.text := rfl
@[simp] theorem raise_tlen (e : ErrCode) (s : State) : (raise e s).tlen = s.tlen := rfl
@[simp] theorem raise_level (e : ErrCode) (s : State) : (raise e s).level = s.level := rfl
@[simp] theorem raise_modeReq (e : ErrCode) (s : State) : (raise e s).modeReq = s.modeReq := rfl
@[simp] theorem raise_mode (e : ErrCode) (s : State) : (raise e s).mode = s.mode := rfl
@[simp] theorem raise_bits (e : ErrCode) (s : State) : (raise e s).bits = s.bits := rfl
@[simp] theorem raise_grid (e : ErrCode) (s : State) : (raise e s).grid = s.grid := rfl
@[simp] theorem raise_pen (e : ErrCode) (s : State) : (raise e s).pen = s.pen := rfl
@[simp] theorem raise_maskSel (e : ErrCode) (s : State) : (raise e s).maskSel = s.maskSel := rfl
@[simp] theorem raise_stage (e : ErrCode) (s : State) : (raise e s).stage = s.stage := rfl
@[simp] theorem raise_err (e : ErrCode) (s : State) : (raise e s).err = e := rfl
@[simp] theorem raise_host (e : ErrCode) (s : State) : (raise e s).host = s.host := rfl
@[simp] theorem raise_reads (e : ErrCode) (s : State) : (raise e s).reads = s.reads := rfl
@[simp] theorem raise_resets (e : ErrCode) (s : State) : (raise e s).resets = s.resets := rfl

/-! ### `clearResults` -/

@[simp] theorem clearResults_text (s : State) : (clearResults s).text = s.text := by simp only [clearResults]
@[simp] theorem clearResults_tlen (s : State) : (clearResults s).tlen = s.tlen := by simp only [clearResults]
@[simp] theorem clearResults_level (s : State) :
    (clearResults s).level = s.level := by simp only [clearResults]
@[simp] theorem clearResults_modeReq (s : State) :
    (clearResults s).modeReq = s.modeReq := by simp only [clearResults]
@[simp] theorem clearResults_mode (s : State) : (clearResults s).mode = 0 := by simp only [clearResults]
@[simp] theorem clearResults_bits (s : State) : (clearResults s).bits = [] := by simp only [clearResults]
@[simp] theorem clearResults_grid (s : State) :
    (clearResults s).grid = Grid.allUnset := by simp only [clearResults]
@[simp] theorem clearResults_pen (s : State) :
    (clearResults s).pen = Vector.replicate 8 0 := by simp only [clearResults]
@[simp] theorem clearResults_maskSel (s : State) :
    (clearResults s).maskSel = 0 := by simp only [clearResults]
@[simp] theorem clearResults_stage (s : State) :
    (clearResults s).stage = .idle := by simp only [clearResults]
@[simp] theorem clearResults_err (s : State) : (clearResults s).err = .noError := by simp only [clearResults]
@[simp] theorem clearResults_host (s : State) : (clearResults s).host = s.host := by simp only [clearResults]
@[simp] theorem clearResults_reads (s : State) :
    (clearResults s).reads = s.reads := by simp only [clearResults]
@[simp] theorem clearResults_resets (s : State) :
    (clearResults s).resets = s.resets := by simp only [clearResults]

/-! ### `redBody` -/

@[simp] theorem redBody_text (s : State) : (redBody s).text = s.text := by simp only [redBody]
@[simp] theorem redBody_tlen (s : State) : (redBody s).tlen = s.tlen := by simp only [redBody]
@[simp] theorem redBody_level (s : State) : (redBody s).level = s.level := by simp only [redBody]
@[simp] theorem redBody_modeReq (s : State) : (redBody s).modeReq = s.modeReq := by simp only [redBody]
@[simp] theorem redBody_mode (s : State) : (redBody s).mode = s.mode := by simp only [redBody]
@[simp] theorem redBody_bits (s : State) :
    (redBody s).bits = appendRedundancy (params.nred s.level) s.bits := by simp only [redBody]
@[simp] theorem redBody_grid (s : State) : (redBody s).grid = s.grid := by simp only [redBody]
@[simp] theorem redBody_pen (s : State) : (redBody s).pen = s.pen := by simp only [redBody]
@[simp] theorem redBody_maskSel (s : State) : (redBody s).maskSel = s.maskSel := by simp only [redBody]
@[simp] theorem redBody_stage (s : State) : (redBody s).stage = .redundant := by simp only [redBody]
@[simp] theorem redBody_err (s : State) : (redBody s).err = s.err := by simp only [redBody]
@[simp] theorem redBody_host (s : State) : (redBody s).host = s.host := by simp only [redBody]
@[simp] theorem redBody_reads (s : State) : (redBody s).reads = s.reads := by simp only [redBody]
@[simp] theorem redBody_resets (s : State) : (redBody s).resets = s.resets := by simp only [redBody]

/-! ### `strBody` -/

@[simp] theorem strBody_text (s : State) : (strBody s).text = s.text := by simp only [strBody]
@[simp] theorem strBody_tlen (s : State) : (strBody s).tlen = s.tlen := by simp only [strBody]
@[simp] theorem strBody_level (s : State) : (strBody s).level = s.level := by simp only [strBody]
@[simp] theorem strBody_modeReq (s : State) : (strBody s).modeReq = s.modeReq := by simp only [strBody]
@[simp] theorem strBody_mode (s : State) : (strBody s).mode = s.mode := by simp only [strBody]
@[simp] theorem strBody_bits (s : State) : (strBody s).bits = s.bits := by simp only [strBody]
@[simp] theorem strBody_grid (s : State) : (strBody s).grid = structuralGrid := by simp only [strBody]
@[simp] theorem strBody_pen (s : State) : (strBody s).pen = s.pen := by simp only [strBody]
@[simp] theorem strBody_maskSel (s : State) : (strBody s).maskSel = s.maskSel := by simp only [strBody]
@[simp] theorem strBody_stage (s : State) : (strBody s).stage = .structured := by simp only [strBody]
@[simp] theorem strBody_err (s : State) : (strBody s).err = s.err := by simp only [strBody]
@[simp] theorem strBody_host (s : State) : (strBody s).host = s.host := by simp only [strBody]
@[simp] theorem strBody_reads (s : State) : (strBody s).reads = s.reads := by simp only [strBody]
@[simp] theorem strBody_resets (s : State) : (strBody s).resets = s.resets := by simp only [strBody]

/-! ### `plcBody` -/

@[simp] theorem plcBody_text (s : State) : (plcBody s).text = s.text := by simp only [plcBody]
@[simp] theorem plcBody_tlen (s : State) : (plcBody s).tlen = s.tlen := by simp only [plcBody]
@[simp] theorem plcBody_level (s : State) : (plcBody s).level = s.level := by simp only [plcBody]
@[simp] theorem plcBody_modeReq (s : State) : (plcBody s).modeReq = s.modeReq := by simp only [plcBody]
@[simp] theorem plcBody_mode (s : State) : (plcBody s).mode = s.mode := by simp only [plcBody]
@[simp] theorem plcBody_bits (s : State) : (plcBody s).bits = s.bits := by simp only [plcBody]
@[simp] theorem plcBody_grid (s : State) :
    (plcBody s).grid = zeroFill (placeBits scanOrder s.bits s.grid) := by simp only [plcBody]
@[simp] theorem plcBody_pen (s : State) : (plcBody s).pen = s.pen := by simp only [plcBody]
@[simp] theorem plcBody_maskSel (s : State) : (plcBody s).maskSel = s.maskSel := by simp only [plcBody]
@[simp] theorem plcBody_stage (s : State) : (plcBody s).stage = .placed := by simp only [plcBody]
@[simp] theorem plcBody_err (s : State) : (plcBody s).err = s.err := by simp only [plcBody]
@[simp] theorem plcBody_host (s : State) : (plcBody s).host = s.host := by simp only [plcBody]
@[simp] theorem plcBody_reads (s : State) : (plcBody s).reads = s.reads := by simp only [plcBody]
@[simp] theorem plcBody_resets (s : State) : (plcBody s).resets = s.resets := by simp only [plcBody]

/-! ### `maskedState` -/

@[simp] theorem maskedState_text (f : Fin 8 → Nat → Nat → Bool) (s : State) :
    (maskedState f s).text = s.text := by simp only [maskedState]
@[simp] theorem maskedState_tlen (f : Fin 8 → Nat → Nat → Bool) (s : State) :
    (maskedState f s).tlen = s.tlen := by simp only [maskedState]
@[simp] theorem maskedState_level (f : Fin 8 → Nat → Nat → Bool) (s : State) :
    (maskedState f s).level = s.level := by simp only [maskedState]
@[simp] theorem maskedState_modeReq (f : Fin 8 → Nat → Nat → Bool) (s : State) :
    (maskedState f s).modeReq = s.modeReq := by simp only [maskedState]
@[simp] theorem maskedState_mode (f : Fin 8 → Nat → Nat → Bool) (s : State) :
    (maskedState f s).mode = s.mode := by simp only [maskedState]
@[simp] theorem maskedState_bits (f : Fin 8 → Nat → Nat → Bool) (s : State) :
    (maskedState f s).bits = s.bits := by simp only [maskedState]
@[simp] theorem maskedState_grid (f : Fin 8 → Nat → Nat → Bool) (s : State) :
    (maskedState f s).grid = applyMask (f (bestMask (scores f s.grid))) s.grid := by simp only [maskedState]
@[simp] theorem maskedState_pen (f : Fin 8 → Nat → Nat → Bool) (s : State) :
    (maskedState f s).pen = scores f s.grid := by simp only [maskedState]
@[simp] theorem maskedState_maskSel (f : Fin 8 → Nat → Nat → Bool) (s : State) :
    (maskedState f s).maskSel = BitVec.ofNat 3 (bestMask (scores f s.grid)).val := by simp only [maskedState]
@[simp] theorem maskedState_stage (f : Fin 8 → Nat → Nat → Bool) (s : State) :
    (maskedState f s).stage = .done := by simp only [maskedState]
@[simp] theorem maskedState_err (f : Fin 8 → Nat → Nat → Bool) (s : State) :
    (maskedState f s).err = s.err := by simp only [maskedState]
@[simp] theorem maskedState_host (f : Fin 8 → Nat → Nat → Bool) (s : State) :
    (maskedState f s).host = s.host := by simp only [maskedState]
@[simp] theorem maskedState_reads (f : Fin 8 → Nat → Nat → Bool) (s : State) :
    (maskedState f s).reads = s.reads := by simp only [maskedState]
@[simp] theorem maskedState_resets (f : Fin 8 → Nat → Nat → Bool) (s : State) :
    (maskedState f s).resets = s.resets := by simp only [maskedState]

/-! ### `hostRead` -/

@[simp] theorem hostRead_text (a : Addr) (s : State) : (hostRead a s).text = s.text := rfl
@[simp] theorem hostRead_tlen (a : Addr) (s : State) : (hostRead a s).tlen = s.tlen := rfl
@[simp] theorem hostRead_level (a : Addr) (s : State) : (hostRead a s).level = s.level := rfl
@[simp] theorem hostRead_modeReq (a : Addr) (s : State) : (hostRead a s).modeReq = s.modeReq := rfl
@[simp] theorem hostRead_mode (a : Addr) (s : State) : (hostRead a s).mode = s.mode := rfl
@[simp] theorem hostRead_bits (a : Addr) (s : State) : (hostRead a s).bits = s.bits := rfl
@[simp] theorem hostRead_grid (a : Addr) (s : State) : (hostRead a s).grid = s.grid := rfl
@[simp] theorem hostRead_pen (a : Addr) (s : State) : (hostRead a s).pen = s.pen := rfl
@[simp] theorem hostRead_maskSel (a : Addr) (s : State) : (hostRead a s).maskSel = s.maskSel := rfl
@[simp] theorem hostRead_stage (a : Addr) (s : State) : (hostRead a s).stage = s.stage := rfl
@[simp] theorem hostRead_err (a : Addr) (s : State) : (hostRead a s).err = s.err := rfl
@[simp] theorem hostRead_host (a : Addr) (s : State) : (hostRead a s).host = s.host := rfl
@[simp] theorem hostRead_reads (a : Addr) (s : State) :
    (hostRead a s).reads = s.reads ++ [memRead a s] := rfl
@[simp] theorem hostRead_resets (a : Addr) (s : State) : (hostRead a s).resets = s.resets := rfl

/-! ### `resetInput` -/

@[simp] theorem resetInput_text (s : State) :
    (resetInput s).text = Vector.ofFn fun i => Config.textAfterReset s.resets i.val := by simp only [resetInput, State.reset]
@[simp] theorem resetInput_tlen (s : State) :
    (resetInput s).tlen = 0 := by simp only [resetInput, State.reset]
@[simp] theorem resetInput_level (s : State) :
    (resetInput s).level = 1 := by simp only [resetInput, State.reset]
@[simp] theorem resetInput_modeReq (s : State) :
    (resetInput s).modeReq = 0 := by simp only [resetInput, State.reset]
@[simp] theorem resetInput_mode (s : State) :
    (resetInput s).mode = 0 := by simp only [resetInput, State.reset]
@[simp] theorem resetInput_bits (s : State) :
    (resetInput s).bits = [] := by simp only [resetInput, State.reset]
@[simp] theorem resetInput_grid (s : State) :
    (resetInput s).grid = Grid.allUnset := by simp only [resetInput, State.reset]
@[simp] theorem resetInput_pen (s : State) :
    (resetInput s).pen = Vector.replicate 8 0 := by simp only [resetInput, State.reset]
@[simp] theorem resetInput_maskSel (s : State) :
    (resetInput s).maskSel = 0 := by simp only [resetInput, State.reset]
@[simp] theorem resetInput_stage (s : State) :
    (resetInput s).stage = .idle := by simp only [resetInput, State.reset]
@[simp] theorem resetInput_err (s : State) :
    (resetInput s).err = .noError := by simp only [resetInput, State.reset]
@[simp] theorem resetInput_host (s : State) :
    (resetInput s).host = s.host := by simp only [resetInput, State.reset]
@[simp] theorem resetInput_reads (s : State) :
    (resetInput s).reads = s.reads := by simp only [resetInput, State.reset]
@[simp] theorem resetInput_resets (s : State) :
    (resetInput s).resets = s.resets + 1 := by simp only [resetInput, State.reset]

end Sys2Proof.Machine
end

