-- ==== Sys2Proof/Laws/Bits.lean ====
section
/-! SUPPORT. Laws of the bit primitive, codewords and their re-expansion (R15, R55, R133). -/

namespace Sys2Proof.Machine

/-- The value of a bit sequence read most-significant bit first. -/
def natOfBits (s : BitSeq) : Nat := s.foldl (fun x b => 2 * x + b.toNat) 0

@[simp] theorem bitsOf_length (v n : Nat) : (bitsOf v n).length = n := by simp [bitsOf]

theorem bitsOf_getElem (v n i : Nat) (h : i < (bitsOf v n).length) :
    (bitsOf v n)[i] = (v / 2 ^ (n - 1 - i) % 2 == 1) := by simp [bitsOf]

@[simp] theorem bitsOf_zero (v : Nat) : bitsOf v 0 = [] := rfl

/-- `Bits` from the least significant end: the last bit is the lowest. -/
theorem bitsOf_succ (v n : Nat) : bitsOf v (n + 1) = bitsOf (v / 2) n ++ [v % 2 == 1] := by
  apply List.ext_getElem
  · simp
  · intro i h1 h2
    rw [bitsOf_getElem]
    rcases Nat.lt_or_ge i n with h | h
    · rw [List.getElem_append_left (by simpa using h), bitsOf_getElem, Nat.div_div_eq_div_mul,
        ← Nat.pow_succ', show n + 1 - 1 - i = (n - 1 - i).succ by omega]
    · have hi : i = n := by simp at h1; omega
      subst hi
      simp

theorem natOfBits_append_single (s : BitSeq) (b : Bool) :
    natOfBits (s ++ [b]) = 2 * natOfBits s + b.toNat := by simp [natOfBits]

/-- `Bits(v, n)` read back is `v mod 2^n` (R15). -/
theorem natOfBits_bitsOf (v n : Nat) : natOfBits (bitsOf v n) = v % 2 ^ n := by
  induction n generalizing v with
  | zero => simp [natOfBits, Nat.mod_one]
  | succ n ih =>
    rw [bitsOf_succ, natOfBits_append_single, ih, Nat.pow_succ', Nat.mod_mul]
    rcases Nat.mod_two_eq_zero_or_one v with h | h <;> simp [h]
    omega

/-- Eight bits are the expansion of the byte they group to (R133). -/
theorem bitsOf_natOfBits (s : BitSeq) : bitsOf (natOfBits s) s.length = s := by
  induction s using List.reverseRecOn with
  | nil => rfl
  | append_singleton s b ih =>
    rw [natOfBits_append_single, List.length_append, List.length_singleton, bitsOf_succ]
    have h1 : (2 * natOfBits s + b.toNat) / 2 = natOfBits s := by cases b <;> simp; omega
    have h2 : ((2 * natOfBits s + b.toNat) % 2 == 1) = b := by cases b <;> simp
    rw [h1, h2, ih]

theorem natOfBits_lt (s : BitSeq) : natOfBits s < 2 ^ s.length := by
  have := natOfBits_bitsOf (natOfBits s) s.length
  rw [bitsOf_natOfBits] at this
  rw [this]
  exact Nat.mod_lt _ (by positivity)

/-- The value of a whole group is that of its eight bits (R55). -/
theorem groupValue_eight (s : BitSeq) (j : Nat) (h : 8 * j + 8 ≤ s.length) :
    groupValue s j 8 = natOfBits ((s.drop (8 * j)).take 8) := by
  have h8 : (s.drop (8 * j)).take 8 = (List.range 8).map fun i => s.getD (8 * j + i) false := by
    apply List.ext_getElem
    · simp; omega
    · intro i h1 h2
      have hi : 8 * j + i < s.length := by simp at h1; omega
      simp [List.getElem?_eq_getElem hi]
  rw [h8]
  simp [groupValue, natOfBits, List.range_succ]
  omega

/-- Re-expansion inverts grouping: `RED` leaves the data in place (R133). -/
theorem bitsOf_codeword (s : BitSeq) (j : Nat) (h : 8 * j + 8 ≤ s.length) :
    bitsOf (codeword s j).toNat 8 = (s.drop (8 * j)).take 8 := by
  have hl : ((s.drop (8 * j)).take 8).length = 8 := by simp; omega
  have hlt := natOfBits_lt ((s.drop (8 * j)).take 8)
  rw [hl] at hlt
  rw [codeword, groupValue_eight s j h, BitVec.toNat_ofNat, Nat.mod_eq_of_lt hlt]
  conv_rhs => rw [← bitsOf_natOfBits ((s.drop (8 * j)).take 8), hl]

@[simp] theorem bytesToBits_length (bs : List Byte) : (bytesToBits bs).length = 8 * bs.length := by
  induction bs with
  | nil => rfl
  | cons b bs ih => simp only [bytesToBits, List.flatMap_cons, List.length_append, bitsOf_length,
      List.length_cons] at ih ⊢; omega

theorem bytesToBits_append (as bs : List Byte) :
    bytesToBits (as ++ bs) = bytesToBits as ++ bytesToBits bs := by simp [bytesToBits]

/-- The `j`-th group of an expansion is the expansion of byte `j`. -/
theorem bytesToBits_group (bs : List Byte) (j : Nat) (h : j < bs.length) :
    ((bytesToBits bs).drop (8 * j)).take 8 = bitsOf bs[j].toNat 8 := by
  induction bs generalizing j with
  | nil => simp at h
  | cons b bs ih =>
    have hb : bytesToBits (b :: bs) = bitsOf b.toNat 8 ++ bytesToBits bs := by simp [bytesToBits]
    cases j with
    | zero => rw [hb]; simp
    | succ j =>
      rw [hb, List.drop_append, show 8 * (j + 1) - (bitsOf b.toNat 8).length = 8 * j by simp [Nat.mul_add],
        List.drop_of_length_le (by simp [Nat.mul_add])]
      simpa using ih j (by simpa using h)

theorem codeword_bytesToBits (bs : List Byte) (j : Nat) (h : j < bs.length) :
    codeword (bytesToBits bs) j = bs[j] := by
  have hl : 8 * j + 8 ≤ (bytesToBits bs).length := by simp; omega
  apply BitVec.eq_of_toNat_eq
  rw [codeword, groupValue_eight _ _ hl, bytesToBits_group bs j h, natOfBits_bitsOf]
  simpa using bs[j].isLt

/-- The data codewords re-expanded are the whole groups of the sequence (R131, R133). -/
theorem bytesToBits_dataCodewords (s : BitSeq) :
    bytesToBits (dataCodewords s) = s.take (8 * (s.length / 8)) := by
  have key : ∀ n, n ≤ s.length / 8 →
      bytesToBits ((List.range n).map (codeword s)) = s.take (8 * n) := by
    intro n
    induction n with
    | zero => intro _; rfl
    | succ n ih =>
      intro hn
      have hb : ∀ b : Byte, bytesToBits [b] = bitsOf b.toNat 8 := by intro b; simp [bytesToBits]
      rw [List.range_succ, List.map_append, bytesToBits_append, ih (by omega), List.map_singleton, hb,
        bitsOf_codeword s n (by omega), show 8 * (n + 1) = 8 * n + 8 by ring, List.take_add]
  exact key _ (Nat.le_refl _)

theorem groupValue_lt (s : BitSeq) (j p : Nat) (h : p ≤ 8) : groupValue s j p < 256 := by
  have hb : ∀ i, (s.getD (8 * j + i) false).toNat ≤ 1 := fun i => Bool.toNat_le _
  have h0 := hb 0; have h1 := hb 1; have h2 := hb 2; have h3 := hb 3
  have h4 := hb 4; have h5 := hb 5; have h6 := hb 6; have h7 := hb 7
  interval_cases p <;> simp only [groupValue, List.range_succ, List.range_zero, List.nil_append,
    List.map_append, List.map_cons, List.map_nil, List.sum_append, List.sum_cons, List.sum_nil,
    Nat.reduceSub, Nat.reducePow] <;> omega

end Sys2Proof.Machine
end

