-- ==== Sys2Proof/Laws/Encode.lean ====
section
/-! SUPPORT. Laws of the text, classification and the data sequence (R100 to R117). -/

namespace Sys2Proof.Machine

/-! ### The text -/

@[simp] theorem chars_length (s : State) : (chars s).length = s.tlen.toNat := by
  have := s.tlen.isLt
  simp [chars]
  omega

theorem chars_congr {s t : State} (h1 : s.text = t.text) (h2 : s.tlen = t.tlen) : chars s = chars t := by
  simp [chars, h1, h2]

/-- The text depends on the cells below `TLEN` only (R21). -/
theorem chars_eq_of_agree {s t : State} (h : s.tlen = t.tlen)
    (ht : ∀ i : Fin 255, i.val < s.tlen.toNat → s.text[i] = t.text[i]) : chars s = chars t := by
  have hb := s.tlen.isLt
  apply List.ext_getElem
  · simp [h]
  · intro i h1 h2
    rw [chars_length] at h1
    have := ht ⟨i, by omega⟩ h1
    simpa [chars] using this

/-! ### `mapM` over characters -/

theorem mapM_eq_some {α β : Type} {f : α → Option β} {g : α → β} {t : List α}
    (h : ∀ c ∈ t, f c = some (g c)) : t.mapM f = some (t.map g) := by
  induction t with
  | nil => rfl
  | cons a t ih =>
    rw [List.mapM_cons, h a (by simp), ih fun c hc => h c (by simp [hc])]
    rfl

theorem mapM_eq_none {α β : Type} {f : α → Option β} {t : List α} {c : α} (hc : c ∈ t) (h : f c = none) :
    t.mapM f = none := by
  induction t with
  | nil => simp at hc
  | cons a t ih =>
    rw [List.mapM_cons]
    rcases List.mem_cons.1 hc with rfl | hc
    · rw [h]; rfl
    · rw [ih hc]; cases f a <;> rfl

/-! ### Payloads -/

theorem digitValue_eq (c : Byte) (h : isDigit c = true) : digitValue c = some (c.toNat - 0x30) := by
  simp [digitValue, h]

theorem alnumIndex_eq (c : Byte) (h : isAlnum c = true) : alnumIndex c = some ((alnumIndex c).getD 0) := by
  obtain ⟨k, hk⟩ := Option.isSome_iff_exists.1 h
  simp [hk]

theorem payload_numeric {t : List Byte} (h : ∀ c ∈ t, isDigit c = true) :
    payload .numeric t = .ok (numericBits (t.map fun c => c.toNat - 0x30)) := by
  simp only [payload, mapM_eq_some fun c hc => digitValue_eq c (h c hc)]

theorem payload_numeric_error {t : List Byte} {c : Byte} (hc : c ∈ t) (h : isDigit c = false) :
    payload .numeric t = .error .eChar := by
  simp only [payload, mapM_eq_none (f := digitValue) hc (by simp [digitValue, h])]

theorem payload_alphanumeric {t : List Byte} (h : ∀ c ∈ t, isAlnum c = true) :
    payload .alphanumeric t = .ok (alnumBits (t.map fun c => (alnumIndex c).getD 0)) := by
  simp only [payload, mapM_eq_some fun c hc => alnumIndex_eq c (h c hc)]

theorem payload_alphanumeric_error {t : List Byte} {c : Byte} (hc : c ∈ t) (h : isAlnum c = false) :
    payload .alphanumeric t = .error .eChar := by
  simp only [payload, mapM_eq_none (f := alnumIndex) hc (by simpa [isAlnum] using h)]

theorem payload_byte (t : List Byte) : payload .byte t = .ok (bytesToBits t) := rfl

theorem payload_kanji (t : List Byte) : payload .kanji t = .error .eMode := rfl

/-- Payload length of the Numeric mode (R108). -/
theorem numericBits_length (ds : List Nat) : (numericBits ds).length =
    10 * (ds.length / 3) + (if ds.length % 3 = 2 then 7 else if ds.length % 3 = 1 then 4 else 0) := by
  induction ds using numericBits.induct with
  | case1 a b c ds ih =>
    simp only [numericBits, List.length_append, bitsOf_length, ih, List.length_cons]
    split_ifs <;> omega
  | case2 a b => simp [numericBits]
  | case3 a => simp [numericBits]
  | case4 => simp [numericBits]

/-- Payload length of the Alphanumeric mode (R109). -/
theorem alnumBits_length (is : List Nat) :
    (alnumBits is).length = 11 * (is.length / 2) + 6 * (is.length % 2) := by
  induction is using alnumBits.induct with
  | case1 a b is ih =>
    simp only [alnumBits, List.length_append, bitsOf_length, ih, List.length_cons]
    omega
  | case2 a => simp [alnumBits]
  | case3 => simp [alnumBits]

/-! ### Padding -/

/-- Every capacity is a multiple of 8 (R7). -/
theorem cap_mod_eight (level : Byte) : params.cap level % 8 = 0 := by
  simp only [params, capOf]; split <;> rfl

theorem cap_le (level : Byte) : params.cap level ≤ 640 := by
  simp only [params, capOf]; split <;> decide

theorem nred_pos (level : Byte) : 0 < params.nred level := by
  simp only [params, nredOf]; split <;> decide

theorem cap_add_nred_le (level : Byte) : params.cap level + 8 * params.nred level ≤ 720 := by
  simp only [params, capOf, nredOf]; split <;> decide

@[simp] theorem filler_length (n : Nat) : (filler n).length = 8 * n := by
  induction n with
  | zero => rfl
  | succ n ih =>
    simp only [filler, List.range_succ, List.flatMap_append, List.length_append] at ih ⊢
    simp [ih]
    omega

/-- Padding reaches the capacity exactly (R116). -/
theorem pad_length (cap : Nat) (s : BitSeq) (h8 : cap % 8 = 0) (h : s.length ≤ cap) :
    (pad cap s).length = cap := by
  simp only [pad, terminator, alignment, List.length_append, List.length_replicate, filler_length]
  omega

/-! ### The data sequence -/

/-- What `encodeText` can answer (R104, R207). -/
theorem encodeText_cases (mode : BitVec 4) (level tlen : Byte) (t : List Byte) :
    (modeOfCode mode = none ∧ encodeText mode level tlen t = .error .eMode)
    ∨ (∃ m e, modeOfCode mode = some m ∧ payload m t = .error e
        ∧ encodeText mode level tlen t = .error e)
    ∨ (∃ m p, modeOfCode mode = some m ∧ payload m t = .ok p
        ∧ params.cap level < (header m tlen.toNat ++ p).length
        ∧ encodeText mode level tlen t = .error .eOverflow)
    ∨ (∃ m p, modeOfCode mode = some m ∧ payload m t = .ok p
        ∧ (header m tlen.toNat ++ p).length ≤ params.cap level
        ∧ encodeText mode level tlen t = .ok (pad (params.cap level) (header m tlen.toNat ++ p))) := by
  cases hm : modeOfCode mode with
  | none => left; simp [encodeText, hm]
  | some m =>
    right
    cases hp : payload m t with
    | error e => left; exact ⟨m, e, rfl, hp, by simp only [encodeText, hm, hp]⟩
    | ok p =>
      right
      by_cases hc : params.cap level < (header m tlen.toNat ++ p).length
      · left; exact ⟨m, p, rfl, hp, hc, by simp only [encodeText, hm, hp, if_pos hc]⟩
      · right; exact ⟨m, p, rfl, hp, Nat.le_of_not_lt hc, by simp only [encodeText, hm, hp, if_neg hc]⟩

/-- A data sequence is exactly its level's capacity long (R116). -/
theorem encodeText_length {mode : BitVec 4} {level tlen : Byte} {t : List Byte} {d : BitSeq}
    (h : encodeText mode level tlen t = .ok d) : d.length = params.cap level := by
  rcases encodeText_cases mode level tlen t with ⟨_, he⟩ | ⟨_, _, _, _, he⟩ | ⟨_, _, _, _, _, he⟩ |
    ⟨m, p, _, _, hle, he⟩ <;> rw [he] at h
  · cases h
  · cases h
  · cases h
  · cases h; exact pad_length _ _ (cap_mod_eight level) hle

theorem payload_error {m : Mode} {t : List Byte} {e : ErrCode} (h : payload m t = .error e) :
    e = .eChar ∨ e = .eMode := by
  cases m <;> simp only [payload] at h <;> (try split at h) <;> cases h <;> simp

/-- The errors of `ENC` (R104). -/
theorem encodeText_error {mode : BitVec 4} {level tlen : Byte} {t : List Byte} {e : ErrCode}
    (h : encodeText mode level tlen t = .error e) : e = .eMode ∨ e = .eChar ∨ e = .eOverflow := by
  rcases encodeText_cases mode level tlen t with ⟨_, he⟩ | ⟨_, _, _, hp, he⟩ | ⟨_, _, _, _, _, he⟩ |
    ⟨m, p, _, _, _, he⟩ <;> rw [he] at h
  · cases h; simp
  · cases h; rcases payload_error hp with rfl | rfl <;> simp
  · cases h; simp
  · cases h

/-! ### Classification -/

/-- The classified mode covers its text (R106). -/
theorem payload_classify (t : List Byte) : ∃ p, payload (classify t) t = .ok p := by
  unfold classify
  split
  · rename_i h; exact ⟨_, payload_numeric (by simpa using h)⟩
  · split
    · rename_i h; exact ⟨_, payload_alphanumeric (by simpa using h)⟩
    · exact ⟨_, payload_byte t⟩

theorem classify_ne_kanji (t : List Byte) : classify t ≠ .kanji := by
  unfold classify; split
  · decide
  · split <;> decide

@[simp] theorem modeOfCode_modeCode (m : Mode) : modeOfCode (modeCode m) = some m := by cases m <;> rfl

end Sys2Proof.Machine
end

