-- ==== Sys2Proof/Laws/Redundancy.lean ====
section
/-! SUPPORT. Laws of the redundancy appender (R130 to R134). -/

namespace Sys2Proof.Machine

@[simp] theorem foldCodewords_length (nr i : Nat) (ds e : List Byte) :
    (foldCodewords nr i ds e).length = e.length := by
  induction ds generalizing i e with
  | nil => rfl
  | cons d ds ih => simp [foldCodewords, ih]

@[simp] theorem redundancy_length (data : List Byte) (nr : Nat) : (redundancy data nr).length = nr := by
  simp [redundancy]

/-- The exclusive or of the codewords whose position, counted from `i`, is congruent to `j` (R132). -/
def foldedInto (nr j : Nat) : Nat → List Byte → Byte → Byte
  | _, [], x => x
  | i, d :: ds, x => foldedInto nr j (i + 1) ds (if i % nr = j then x ^^^ d else x)

/-- Each redundancy cell folds its own codewords and no others (R132). -/
theorem foldCodewords_getD (nr i j : Nat) (ds e : List Byte) (h : j < e.length) :
    (foldCodewords nr i ds e).getD j 0 = foldedInto nr j i ds (e.getD j 0) := by
  induction ds generalizing i e with
  | nil => rfl
  | cons d ds ih =>
    rw [foldCodewords, foldedInto, ih _ _ (by simpa using h)]
    congr 1
    simp only [List.getD_eq_getElem?_getD, List.getElem?_modify]
    by_cases hj : i % nr = j
    · simp [hj, List.getElem?_eq_getElem h]
    · simp [hj]

/-- `RED` leaves the whole groups of the data in place and appends (R133). -/
theorem appendRedundancy_eq (nr : Nat) (s : BitSeq) : appendRedundancy nr s =
    s.take (8 * (s.length / 8)) ++ bytesToBits (redundancy (dataCodewords s) nr) := by
  rw [appendRedundancy, bytesToBits_append, bytesToBits_dataCodewords]

/-- The length after `RED` (R130, R134). -/
theorem appendRedundancy_length (nr : Nat) (s : BitSeq) :
    (appendRedundancy nr s).length = 8 * (s.length / 8 + nr) := by
  simp [appendRedundancy_eq]
  omega

/-- The length after `RED` on a full data sequence (R134). -/
theorem appendRedundancy_length_of_cap {level : Byte} {s : BitSeq} (h : s.length = params.cap level) :
    (appendRedundancy (params.nred level) s).length = params.cap level + 8 * params.nred level := by
  have := cap_mod_eight level
  rw [appendRedundancy_length, h]
  omega

end Sys2Proof.Machine
end

