-- ==== Sys2Proof/Laws/Grid.lean ====
section
/-! SUPPORT. Laws of grid cells, placement and zero fill (R27, R147 to R151). -/

namespace Sys2Proof.Machine

@[simp] theorem cell_ofCells (f : Fin 33 → Fin 33 → Module) (r c : Fin 33) :
    (Grid.ofCells f).cell r c = f r c := by simp [Grid.cell, Grid.ofCells]

theorem grid_ext {g h : Grid} (H : ∀ r c : Fin 33, g.cell r c = h.cell r c) : g = h := by
  apply Vector.ext
  intro r hr
  apply Vector.ext
  intro c hc
  exact H ⟨r, hr⟩ ⟨c, hc⟩

@[simp] theorem cell_allUnset (r c : Fin 33) : Grid.allUnset.cell r c = .unset := by
  simp [Grid.cell, Grid.allUnset]

/-- Reading after a write of one cell: that cell has the written module, every other keeps its own. -/
theorem cell_setCell (g : Grid) (r c r' c' : Fin 33) (m : Module) :
    (g.setCell r c m).cell r' c' = if r' = r ∧ c' = c then m else g.cell r' c' := by
  simp only [Grid.cell, Grid.setCell, Fin.getElem_fin]
  by_cases hr : r' = r
  · subst hr
    by_cases hc : c' = c
    · subst hc; simp
    · have : ¬ c.val = c'.val := fun h => hc (Fin.ext h.symm)
      simp [hc, this]
  · have : ¬ r.val = r'.val := fun h => hr (Fin.ext h.symm)
    simp [hr, this]

theorem binary_iff (g : Grid) : g.binary = true ↔ ∀ r c : Fin 33, g.cell r c ≠ .unset := by
  simp [Grid.binary]

@[simp] theorem cell_zeroFill (g : Grid) (r c : Fin 33) :
    (zeroFill g).cell r c = if g.cell r c = .unset then .light else g.cell r c := by simp [zeroFill]

/-- After `PLC` no cell is Unset (R150). -/
theorem zeroFill_binary (g : Grid) : (zeroFill g).binary = true := by
  rw [binary_iff]
  intro r c
  rw [cell_zeroFill]
  split
  · decide
  · assumption

/-- Placement never overwrites a cell that is not Unset (R149). -/
theorem placeBits_keeps (ps : List (Fin 33 × Fin 33)) (bs : BitSeq) (g : Grid) (r c : Fin 33)
    (h : g.cell r c ≠ .unset) : (placeBits ps bs g).cell r c = g.cell r c := by
  induction ps, bs, g using placeBits.induct with
  | case1 bs g => rfl
  | case2 p ps g => rfl
  | case3 p ps b bs g hu ih =>
    have hne : ¬ (r = p.1 ∧ c = p.2) := by rintro ⟨rfl, rfl⟩; exact h hu
    rw [placeBits, if_pos hu, ih (by rw [cell_setCell, if_neg hne]; exact h), cell_setCell, if_neg hne]
  | case4 p ps b bs g hu ih => rw [placeBits, if_neg hu, ih h]

/-- Placement writes only the cells it visits (R149). -/
theorem placeBits_not_mem (ps : List (Fin 33 × Fin 33)) (bs : BitSeq) (g : Grid) (r c : Fin 33)
    (h : (r, c) ∉ ps) : (placeBits ps bs g).cell r c = g.cell r c := by
  induction ps, bs, g using placeBits.induct with
  | case1 bs g => rfl
  | case2 p ps g => rfl
  | case3 p ps b bs g hu ih =>
    have hne : ¬ (r = p.1 ∧ c = p.2) := by rintro ⟨rfl, rfl⟩; exact h (by simp)
    rw [placeBits, if_pos hu, ih fun hm => h (List.mem_cons_of_mem _ hm), cell_setCell, if_neg hne]
  | case4 p ps b bs g hu ih =>
    rw [placeBits, if_neg hu, ih fun hm => h (List.mem_cons_of_mem _ hm)]

theorem bitModule_ne_unset (b : Bool) : bitModule b ≠ .unset := by cases b <;> decide

/-- A cell the placement leaves Unset was Unset, so `PLC` fills exactly the Unset cells. -/
theorem placedCell_structural (ps : List (Fin 33 × Fin 33)) (bs : BitSeq) (g : Grid) (r c : Fin 33)
    (h : g.cell r c ≠ .unset) : (zeroFill (placeBits ps bs g)).cell r c = g.cell r c := by
  rw [cell_zeroFill, placeBits_keeps ps bs g r c h, if_neg h]

/-! ### The scan order -/

@[simp] theorem pairCells_length (u : Bool) (r : Nat) : (pairCells u r).length = 66 := by simp [pairCells]

/-- The cells of a column pair are the two whole columns (R148). -/
theorem mem_pairCells {u : Bool} {r : Nat} {p : Fin 33 × Fin 33} :
    p ∈ pairCells u r ↔ p.2 = Fin.ofNat 33 r ∨ p.2 = Fin.ofNat 33 (r - 1) := by
  simp only [pairCells, List.mem_flatMap, List.mem_finRange, true_and, List.mem_cons, List.not_mem_nil,
    or_false]
  constructor
  · rintro ⟨a, h | h⟩ <;> subst h <;> simp
  · intro h
    refine ⟨if u then p.1.rev else p.1, ?_⟩
    rcases h with h | h
    · left; cases u <;> exact Prod.ext (by simp) h
    · right; cases u <;> exact Prod.ext (by simp) h

/-- No cell of a column pair is visited twice. -/
theorem pairCells_nodup (u : Bool) {r : Nat} (h : Fin.ofNat 33 r ≠ Fin.ofNat 33 (r - 1)) :
    (pairCells u r).Nodup := by
  rw [pairCells, List.nodup_flatMap]
  refine ⟨fun t _ => by simpa using fun h1 : _ = _ => h h1, ?_⟩
  refine (List.nodup_finRange 33).imp fun {a b} hab => ?_
  have hne : (if u then a.rev else a) ≠ (if u then b.rev else b) := by cases u <;> simpa using hab
  intro p hp hq
  simp only [List.mem_cons, List.not_mem_nil, or_false] at hp hq
  have ep : p.1 = if u then a.rev else a := by rcases hp with rfl | rfl <;> rfl
  have eq : p.1 = if u then b.rev else b := by rcases hq with rfl | rfl <;> rfl
  exact hne (ep.symm.trans eq)

/-- The loop of R148 unrolled: sixteen column pairs, upward first. -/
theorem scanOrder_pairs : scanOrder = (List.range 16).flatMap fun k =>
    pairCells (k % 2 == 0) (if k ≤ 12 then 32 - 2 * k else 31 - 2 * k) := by
  simp [scanOrder, scanFrom, List.range_succ]

end Sys2Proof.Machine
end

