-- ==== Sys2Proof/Laws/Mask.lean ====
section
/-! SUPPORT. Laws of mask application, the penalty and the selection (R160 to R168). -/

namespace Sys2Proof.Machine

@[simp] theorem flipModule_flipModule (m : Module) : flipModule (flipModule m) = m := by cases m <;> rfl

@[simp] theorem flipModule_eq_unset (m : Module) : flipModule m = .unset ↔ m = .unset := by
  cases m <;> decide

@[simp] theorem cell_applyMask (flips : Nat → Nat → Bool) (g : Grid) (r c : Fin 33) :
    (applyMask flips g).cell r c =
      if eligible r.val c.val && flips r.val c.val then flipModule (g.cell r c) else g.cell r c := by
  simp [applyMask]

/-- The same mask twice gives back the grid (R163). -/
theorem applyMask_applyMask (flips : Nat → Nat → Bool) (g : Grid) :
    applyMask flips (applyMask flips g) = g := by
  apply grid_ext
  intro r c
  rw [cell_applyMask, cell_applyMask]
  split <;> simp

/-- Masking keeps a binary grid binary. -/
theorem applyMask_binary {flips : Nat → Nat → Bool} {g : Grid} (h : g.binary = true) :
    (applyMask flips g).binary = true := by
  rw [binary_iff] at h ⊢
  intro r c
  rw [cell_applyMask]
  split
  · simpa using h r c
  · exact h r c

/-- A cell outside the eligible region keeps its module (R161, R163). -/
theorem applyMask_not_eligible (flips : Nat → Nat → Bool) (g : Grid) (r c : Fin 33)
    (h : eligible r.val c.val = false) : (applyMask flips g).cell r c = g.cell r c := by
  simp [h]

theorem runPenalty_le (n : Nat) : runPenalty n ≤ n - 2 := by unfold runPenalty; split <;> omega

/-- A run and what follows it score at most the number of their cells less 2 (R168). -/
theorem runsPenalty_le (m : Module) (n : Nat) (xs : List Module) (h : 1 ≤ n) :
    runsPenalty m n xs ≤ n + xs.length - 2 := by
  induction xs generalizing m n with
  | nil => exact runPenalty_le n
  | cons x xs ih =>
    rw [runsPenalty]
    split
    · have := ih m (n + 1) (by omega); simp only [List.length_cons]; omega
    · have h1 := ih x 1 (Nat.le_refl 1)
      have h2 : runPenalty n ≤ n - 1 := Nat.le_trans (runPenalty_le n) (by omega)
      have h3 : n = 1 → runPenalty n = 0 := by rintro rfl; rfl
      have h4 := runPenalty_le n
      simp only [List.length_cons]
      by_cases hx : xs = []
      · subst hx
        simp only [List.length_nil] at h1 ⊢
        have : runsPenalty x 1 [] = 0 := rfl
        omega
      · have : 1 ≤ xs.length := List.length_pos_of_ne_nil hx
        omega

theorem linePenalty_le (v : List Module) : linePenalty v ≤ v.length - 2 := by
  cases v with
  | nil => simp [linePenalty]
  | cons x xs =>
    have := runsPenalty_le x 1 xs (Nat.le_refl 1)
    simp only [linePenalty, List.length_cons]; omega

theorem bv_lt_of_lt_of_le {w : Nat} {x y z : BitVec w} (h1 : x < y) (h2 : y ≤ z) : x < z := by
  rw [BitVec.lt_def] at h1 ⊢
  rw [BitVec.le_def] at h2
  omega

/-- One comparison of the selection loop (R160): when `best` is the first minimum of the candidates below
`n`, the better of it and candidate `n` is the first minimum of those below `n + 1`. -/
theorem better_firstMin (pen : Vector (BitVec 16) 8) (n : Nat) (hn : n < 8) (best : Fin 8) (hb : best.val < n)
    (hle : ∀ k : Fin 8, k.val < n → pen[best] ≤ pen[k]) (hlt : ∀ k : Fin 8, k < best → pen[best] < pen[k]) :
    let b : Fin 8 := if pen[(⟨n, hn⟩ : Fin 8)] < pen[best] then ⟨n, hn⟩ else best
    b.val < n + 1 ∧ (∀ k : Fin 8, k.val < n + 1 → pen[b] ≤ pen[k]) ∧ (∀ k : Fin 8, k < b → pen[b] < pen[k]) := by
  by_cases hc : pen[(⟨n, hn⟩ : Fin 8)] < pen[best]
  · simp only [if_pos hc]
    refine ⟨Nat.lt_succ_self n, ?_, ?_⟩
    · intro k hk
      rcases Nat.lt_succ_iff_lt_or_eq.1 hk with h | h
      · exact BitVec.le_of_lt (bv_lt_of_lt_of_le hc (hle k h))
      · rw [show k = ⟨n, hn⟩ from Fin.ext h]; exact BitVec.le_refl _
    · intro k hk
      exact bv_lt_of_lt_of_le hc (hle k hk)
  · simp only [if_neg hc]
    refine ⟨Nat.lt_succ_of_lt hb, ?_, hlt⟩
    intro k hk
    rcases Nat.lt_succ_iff_lt_or_eq.1 hk with h | h
    · exact hle k h
    · rw [show k = ⟨n, hn⟩ from Fin.ext h]; exact BitVec.not_lt.1 hc

end Sys2Proof.Machine
end

