-- ==== Sys2Proof/Laws/Control.lean ====
section
/-! SUPPORT. Laws of acceptance and of each command: what it can answer, said once (R184, R208). -/

namespace Sys2Proof.Machine

/-- Two next states that are answered alike are the same state. -/
theorem next_inj {s t : State} (h : (Host.Outcome.next s : Result) = .next t) : s = t := by
  injection h

/-- Everything `accept` can answer (R184). -/
theorem accept_cases (need : Stage) (body : State → Result) (s : State) :
    (s.err ≠ .noError ∧ accept need body s = .next s)
    ∨ (s.err = .noError ∧ s.stage ≠ need ∧ accept need body s = .next (raise .eSeq s))
    ∨ (s.err = .noError ∧ s.stage = need ∧ accept need body s = body s) := by
  unfold accept
  by_cases h1 : s.err = .noError
  · by_cases h2 : s.stage = need
    · right; right; exact ⟨h1, h2, by rw [if_neg (not_not.2 h1), if_neg (not_not.2 h2)]⟩
    · right; left; exact ⟨h1, h2, by rw [if_neg (not_not.2 h1), if_pos h2]⟩
  · left; exact ⟨h1, if_pos h1⟩

theorem accept_of_err {need : Stage} {body : State → Result} {s : State} (h : s.err ≠ .noError) :
    accept need body s = .next s := if_pos h

theorem accept_of_stage_ne {need : Stage} {body : State → Result} {s : State} (h1 : s.err = .noError)
    (h2 : s.stage ≠ need) : accept need body s = .next (raise .eSeq s) := by
  rw [accept, if_neg (not_not.2 h1), if_pos h2]

theorem accept_ready {need : Stage} {body : State → Result} {s : State} (h1 : s.err = .noError)
    (h2 : s.stage = need) : accept need body s = body s := by
  rw [accept, if_neg (not_not.2 h1), if_neg (not_not.2 h2)]

/-- Everything the body of `CLS` can do (R103). -/
theorem clsBody_cases (s : State) :
    (s.tlen = 0 ∧ clsBody s = raise .eEmpty s)
    ∨ (s.tlen ≠ 0 ∧ clsBody s = { s with mode := chosenMode s, stage := .classified }) := by
  unfold clsBody
  by_cases h : s.tlen = 0
  · left; exact ⟨h, if_pos h⟩
  · right; exact ⟨h, if_neg h⟩

/-- Everything the body of `ENC` can do (R104). -/
theorem encBody_cases (s : State) :
    (∃ e, encodeText s.mode s.level s.tlen (chars s) = .error e ∧ encBody s = raise e s)
    ∨ (∃ d, EncodesTo s d ∧ encBody s = { s with bits := d, stage := .encoded }) := by
  unfold EncodesTo encBody
  cases h : encodeText s.mode s.level s.tlen (chars s) with
  | error e => left; exact ⟨e, rfl, rfl⟩
  | ok d => right; exact ⟨d, rfl, rfl⟩

/-- Everything the body of `MSK` can do (R160; log entry 5). -/
theorem mskBody_cases (s : State) :
    (s.grid.binary = true ∧ mskBody s = .next (maskedState params.maskFn s))
    ∨ (s.grid.binary = false ∧ mskBody s = .fault .maskOfUnsetGrid) := by
  cases h : s.grid.binary with
  | true => left; exact ⟨rfl, by rw [mskBody, if_pos h]⟩
  | false => right; exact ⟨rfl, by rw [mskBody, if_neg (by simp [h])]⟩

/-- The four stages that cannot fail, after a successful `ENC` (R182): the state they leave. -/
def finishState (s : State) : State := maskedState params.maskFn (plcBody (strBody (redBody s)))

theorem genBody_of_cls_error {s s1 : State} (h1 : clsBody s = s1) (he : s1.err ≠ .noError) :
    genBody s = .next s1 := by simp only [genBody, h1, if_pos he]

theorem genBody_of_enc_error {s s1 s2 : State} (h1 : clsBody s = s1) (he : s1.err = .noError)
    (h2 : encBody s1 = s2) (he2 : s2.err ≠ .noError) : genBody s = .next s2 := by
  simp only [genBody, h1, if_neg (not_not.2 he), h2, if_pos he2]

theorem genBody_of_enc {s s1 s2 : State} (h1 : clsBody s = s1) (he : s1.err = .noError)
    (h2 : encBody s1 = s2) (he2 : s2.err = .noError) : genBody s = .next (finishState s2) := by
  have hb : (plcBody (strBody (redBody s2))).grid.binary = true := by
    rw [plcBody_grid]; exact zeroFill_binary _
  simp only [genBody, h1, if_neg (not_not.2 he), h2, if_neg (not_not.2 he2), mskBody, if_pos hb, finishState]

/-- Everything the body of `GEN` can do (R182): it stops where `CLS` or `ENC` raises, else it runs to the
end. -/
theorem genBody_cases (s : State) (hs : s.err = .noError) :
    (s.tlen = 0 ∧ genBody s = .next (raise .eEmpty s))
    ∨ (s.tlen ≠ 0 ∧ ∃ e, e ≠ .noError
        ∧ encodeText (chosenMode s) s.level s.tlen (chars s) = .error e
        ∧ genBody s = .next (raise e { s with mode := chosenMode s, stage := .classified }))
    ∨ (s.tlen ≠ 0 ∧ ∃ d, encodeText (chosenMode s) s.level s.tlen (chars s) = .ok d
        ∧ genBody s =
            .next (finishState { s with mode := chosenMode s, bits := d, stage := .encoded })) := by
  rcases clsBody_cases s with ⟨h0, h⟩ | ⟨h0, h⟩
  · left
    exact ⟨h0, genBody_of_cls_error h (by simp)⟩
  · right
    rcases encBody_cases { s with mode := chosenMode s, stage := .classified } with ⟨e, he, h2⟩ | ⟨d, hd, h2⟩
    · left
      have hne : e ≠ .noError := by
        rcases encodeText_error he with rfl | rfl | rfl <;> decide
      exact ⟨h0, e, hne, he, genBody_of_enc_error h hs h2 hne⟩
    · right
      exact ⟨h0, d, hd, genBody_of_enc h hs h2 hs⟩

/-! ### The arms of `exec` -/

theorem exec_nop (s : State) : exec .nop s = .next s := rfl
theorem exec_cls (s : State) : exec .cls s = accept .idle (fun s => .next (clsBody s)) s := rfl
theorem exec_enc (s : State) : exec .enc s = accept .classified (fun s => .next (encBody s)) s := rfl
theorem exec_red (s : State) : exec .red s = accept .encoded (fun s => .next (redBody s)) s := rfl
theorem exec_str (s : State) : exec .str s = accept .redundant (fun s => .next (strBody s)) s := rfl
theorem exec_plc (s : State) : exec .plc s = accept .structured (fun s => .next (plcBody s)) s := rfl
theorem exec_msk (s : State) : exec .msk s = accept .placed mskBody s := rfl
theorem exec_gen (s : State) : exec .gen s = accept .idle genBody s := rfl
theorem exec_clr (s : State) : exec .clr s = .next (clearResults s) := rfl

/-- While an error is recorded no command but `CLR` changes anything (R209). -/
theorem exec_of_err {i : Instr} {s : State} (h : s.err ≠ .noError) (hi : i ≠ .clr) : exec i s = .next s := by
  cases i
  case nop => rfl
  case cls => rw [exec_cls, accept_of_err h]
  case enc => rw [exec_enc, accept_of_err h]
  case red => rw [exec_red, accept_of_err h]
  case str => rw [exec_str, accept_of_err h]
  case plc => rw [exec_plc, accept_of_err h]
  case msk => rw [exec_msk, accept_of_err h]
  case gen => rw [exec_gen, accept_of_err h]
  case clr => exact absurd rfl hi

end Sys2Proof.Machine
end

