-- ==== Sys2Proof/Laws/Host.lean ====
section
/-! SUPPORT. Laws of the address map, host accesses and the step (R51 to R54, R184, R230). -/

namespace Sys2Proof.Machine

/-- The address map, range by range (R51). -/
theorem regAt_low {a : Addr} (h : a.toNat < 0x010) : regAt a = lowReg a.toNat := by
  simp only [regAt, if_pos h]

theorem regAt_pen {a : Addr} (k : Fin 8) (h : a.toNat = 0x010 + k.val) : regAt a = some (.pen k) := by
  have hk := k.isLt
  have e : Fin.ofNat 8 (a.toNat - 0x010) = k := Fin.ext (by simp only [Fin.ofNat]; omega)
  simp only [regAt, if_neg (show ¬ a.toNat < 0x010 by omega), if_pos (show a.toNat ≤ 0x017 by omega), e]

theorem regAt_text {a : Addr} (i : Fin 255) (h : a.toNat = 0x100 + i.val) : regAt a = some (.text i) := by
  have hi := i.isLt
  have e : Fin.ofNat 255 (a.toNat - 0x100) = i := Fin.ext (by simp only [Fin.ofNat]; omega)
  simp only [regAt, if_neg (show ¬ a.toNat < 0x010 by omega), if_neg (show ¬ a.toNat ≤ 0x017 by omega),
    if_neg (show ¬ a.toNat < 0x100 by omega), if_pos (show a.toNat ≤ 0x1FE by omega), e]

theorem regAt_cw {a : Addr} (j : Fin 90) (h : a.toNat = 0x200 + j.val) : regAt a = some (.cw j) := by
  have hj := j.isLt
  have e : Fin.ofNat 90 (a.toNat - 0x200) = j := Fin.ext (by simp only [Fin.ofNat]; omega)
  simp only [regAt, if_neg (show ¬ a.toNat < 0x010 by omega), if_neg (show ¬ a.toNat ≤ 0x017 by omega),
    if_neg (show ¬ a.toNat < 0x100 by omega), if_neg (show ¬ a.toNat ≤ 0x1FE by omega),
    if_neg (show ¬ a.toNat < 0x200 by omega), if_pos (show a.toNat ≤ 0x259 by omega), e]

theorem regAt_grid {a : Addr} (r c : Fin 33) (h : a.toNat = 0x400 + 33 * r.val + c.val) :
    regAt a = some (.grid r c) := by
  have hr := r.isLt
  have hc := c.isLt
  have e1 : Fin.ofNat 33 ((a.toNat - 0x400) / 33) = r := Fin.ext (by simp only [Fin.ofNat]; omega)
  have e2 : Fin.ofNat 33 ((a.toNat - 0x400) % 33) = c := Fin.ext (by simp only [Fin.ofNat]; omega)
  simp only [regAt, if_neg (show ¬ a.toNat < 0x010 by omega), if_neg (show ¬ a.toNat ≤ 0x017 by omega),
    if_neg (show ¬ a.toNat < 0x100 by omega), if_neg (show ¬ a.toNat ≤ 0x1FE by omega),
    if_neg (show ¬ a.toNat < 0x200 by omega), if_neg (show ¬ a.toNat ≤ 0x259 by omega),
    if_neg (show ¬ a.toNat < 0x400 by omega), if_pos (show a.toNat ≤ 0x840 by omega), e1, e2]

/-- Every address, by the register it names (R51). -/
theorem regAt_cases (a : Addr) :
    (a.toNat < 0x010 ∧ regAt a = lowReg a.toNat)
    ∨ (∃ k : Fin 8, a.toNat = 0x010 + k.val ∧ regAt a = some (.pen k))
    ∨ (∃ i : Fin 255, a.toNat = 0x100 + i.val ∧ regAt a = some (.text i))
    ∨ (∃ j : Fin 90, a.toNat = 0x200 + j.val ∧ regAt a = some (.cw j))
    ∨ (∃ r c : Fin 33, a.toNat = 0x400 + 33 * r.val + c.val ∧ regAt a = some (.grid r c))
    ∨ (((0x018 ≤ a.toNat ∧ a.toNat ≤ 0x0FF) ∨ a.toNat = 0x1FF ∨ (0x25A ≤ a.toNat ∧ a.toNat ≤ 0x3FF)
        ∨ 0x841 ≤ a.toNat) ∧ regAt a = none) := by
  by_cases h1 : a.toNat < 0x010
  · left; exact ⟨h1, regAt_low h1⟩
  right
  by_cases h2 : a.toNat ≤ 0x017
  · left
    refine ⟨⟨a.toNat - 0x010, by omega⟩, by simp; omega, regAt_pen _ (by simp; omega)⟩
  right
  by_cases h3 : 0x100 ≤ a.toNat ∧ a.toNat ≤ 0x1FE
  · left
    refine ⟨⟨a.toNat - 0x100, by omega⟩, by simp; omega, regAt_text _ (by simp; omega)⟩
  right
  by_cases h4 : 0x200 ≤ a.toNat ∧ a.toNat ≤ 0x259
  · left
    refine ⟨⟨a.toNat - 0x200, by omega⟩, by simp; omega, regAt_cw _ (by simp; omega)⟩
  right
  by_cases h5 : 0x400 ≤ a.toNat ∧ a.toNat ≤ 0x840
  · left
    refine ⟨⟨(a.toNat - 0x400) / 33, by omega⟩, ⟨(a.toNat - 0x400) % 33, by omega⟩, by simp; omega,
      regAt_grid _ _ (by simp; omega)⟩
  right
  refine ⟨by omega, ?_⟩
  simp only [regAt, if_neg h1, if_neg h2]
  split_ifs <;> first | rfl | omega

/-- `CMD` is the register at address 0 and at no other (R51). -/
theorem regAt_eq_cmd (a : Addr) : regAt a = some .cmd ↔ a = 0 := by
  constructor
  · intro h
    rcases regAt_cases a with ⟨h1, h2⟩ | ⟨k, _, h2⟩ | ⟨i, _, h2⟩ | ⟨j, _, h2⟩ | ⟨r, c, _, h2⟩ | ⟨_, h2⟩ <;>
      rw [h2] at h
    · apply BitVec.eq_of_toNat_eq
      revert h
      generalize a.toNat = n at h1
      interval_cases n <;> simp [lowReg]
    all_goals cases h
  · rintro rfl; rfl

theorem memWrite_cmd (w : Word) (s : State) : memWrite 0x000 w s = issueWord w s := rfl

/-- A host write elsewhere than to `CMD` (R53): one register write, or nothing at a reserved address. -/
theorem memWrite_of_ne {a : Addr} (h : a ≠ 0) (v : Word) (s : State) :
    (∃ r, regAt a = some r ∧ r ≠ .cmd ∧ memWrite a v s = .next (writeReg r v s))
    ∨ (regAt a = none ∧ memWrite a v s = .next s) := by
  cases hr : regAt a with
  | none => right; exact ⟨rfl, by simp only [memWrite, hr]⟩
  | some r =>
    left
    have hne : r ≠ .cmd := by rintro rfl; exact h ((regAt_eq_cmd a).1 hr)
    refine ⟨r, rfl, hne, ?_⟩
    unfold memWrite
    rw [hr]
    cases r <;> first | rfl | exact absurd rfl hne

theorem writeReg_locked {s : State} (h : inputsOpen s = false) (r : Reg) (v : Word) :
    writeReg r v s = s := by simp [writeReg, h]

/-- A register write changes operand registers only, and only while the lock is open (R40, R53). -/
theorem writeReg_frame (r : Reg) (v : Word) (s : State) :
    writeReg r v s = { s with
      text := (writeReg r v s).text
      tlen := (writeReg r v s).tlen
      level := (writeReg r v s).level
      modeReq := (writeReg r v s).modeReq } := by
  unfold writeReg
  by_cases h : inputsOpen s = true
  · rw [if_pos h]; cases r <;> rfl
  · rw [if_neg h]

/-- Everything a word written to `CMD` can do (R184). -/
theorem issueWord_cases (w : Word) (s : State) :
    (∃ i, decode w = .ok i ∧ issueWord w s = exec i s)
    ∨ (∃ x, decode w = .error x ∧ issueWord w s = .next (rejectWord s)) := by
  unfold issueWord
  cases h : decode w with
  | ok i => left; exact ⟨i, rfl, rfl⟩
  | error x => right; exact ⟨x, rfl, rfl⟩

/-- Everything `rejectWord` can do (R184). -/
theorem rejectWord_cases (s : State) :
    (s.err ≠ .noError ∧ rejectWord s = s) ∨ (s.err = .noError ∧ rejectWord s = raise .eCmd s) := by
  unfold rejectWord
  by_cases h : s.err = .noError
  · right; exact ⟨h, if_neg (not_not.2 h)⟩
  · left; exact ⟨h, if_pos h⟩

/-- The step, by the oldest host event (R63). -/
theorem step_nil {s : State} (h : s.host = []) : step s = .next s := by unfold step; rw [h]

theorem step_read {s : State} {a : Addr} {rest : List HostEvent} (h : s.host = .read a :: rest) :
    step s = .next (hostRead a { s with host := rest }) := by unfold step; rw [h]; rfl

theorem step_write {s : State} {a : Addr} {v : Word} {rest : List HostEvent}
    (h : s.host = .write a v :: rest) : step s = memWrite a v { s with host := rest } := by
  unfold step; rw [h]; rfl

theorem step_reset {s : State} {rest : List HostEvent} (h : s.host = .reset :: rest) :
    step s = .next (resetInput { s with host := rest }) := by unfold step; rw [h]; rfl

/-- A value that reads registers does not see the host's side of the interface (R54). -/
theorem memRead_frame (a : Addr) (s : State) (h : List HostEvent) (rs : List Word) (n : Nat) :
    memRead a { s with host := h, reads := rs, resets := n } = memRead a s := by
  unfold memRead
  cases regAt a with
  | none => rfl
  | some r => cases r <;> rfl

end Sys2Proof.Machine
end

