-- ==== Sys2Proof/Laws/PerInstr.lean ====
section
/-! SUPPORT. The laws stated per command. `Encoding`: the command's word has a zero reserved field and an
assigned operation code, is well formed, and decodes to the command (R70 to R72). -/

namespace Sys2Proof.Laws.Encoding

/-- The encoding law of one command. -/
def Statement (i : Instr) : Prop :=
  i.wf = true ∧ CommandWord.wf (encode i) = true ∧ (encode i).toNat = (opcode i).toNat
    ∧ decode (encode i) = .ok i

theorem nop : Statement .nop := ⟨rfl, rfl, rfl, rfl⟩
theorem cls : Statement .cls := ⟨rfl, rfl, rfl, rfl⟩
theorem enc : Statement .enc := ⟨rfl, rfl, rfl, rfl⟩
theorem red : Statement .red := ⟨rfl, rfl, rfl, rfl⟩
theorem str : Statement .str := ⟨rfl, rfl, rfl, rfl⟩
theorem plc : Statement .plc := ⟨rfl, rfl, rfl, rfl⟩
theorem msk : Statement .msk := ⟨rfl, rfl, rfl, rfl⟩
theorem gen : Statement .gen := ⟨rfl, rfl, rfl, rfl⟩
theorem clr : Statement .clr := ⟨rfl, rfl, rfl, rfl⟩

end Sys2Proof.Laws.Encoding
end

