-- ==== Sys2Proof/Laws/Safety.lean ====
section
/-! SUPPORT. Laws of the invariant `Consistent`: what it says at each stage, and which registers it
reads. -/

namespace Sys2Proof.Machine

/-- The chosen mode depends on the operand registers only (R103). -/
theorem chosenMode_congr {s t : State} (h1 : t.modeReq = s.modeReq) (h2 : t.tlen = s.tlen)
    (h3 : t.text = s.text) : chosenMode t = chosenMode s := by
  simp only [chosenMode, h1, chars_congr h3 h2]

/-- The data sequence depends on `MODE` and the operand registers only (R104). -/
theorem encodesTo_congr {s t : State} (h1 : t.mode = s.mode) (h2 : t.level = s.level)
    (h3 : t.tlen = s.tlen) (h4 : t.text = s.text) (d : BitSeq) : EncodesTo t d ↔ EncodesTo s d := by
  unfold EncodesTo
  rw [h1, h2, h3, chars_congr h4 h3]

/-! ### The invariant at each stage -/

/-- The data and redundancy sequence of the operands is `b` (R130). -/
def FullSequence (s : State) (b : BitSeq) : Prop :=
  ∃ d, EncodesTo s d ∧ b = appendRedundancy (params.nred s.level) d

theorem fullSequence_congr {s t : State} (h1 : t.mode = s.mode) (h2 : t.level = s.level)
    (h3 : t.tlen = s.tlen) (h4 : t.text = s.text) (b : BitSeq) : FullSequence t b ↔ FullSequence s b := by
  unfold FullSequence
  simp only [encodesTo_congr h1 h2 h3 h4, h2]

theorem consistent_idle {s : State} (h : s.stage = .idle) : Consistent s ↔
    s.mode = 0 ∧ s.bits = [] ∧ s.grid = Grid.allUnset ∧ NoScores s := by
  simp [Consistent, ModeConsistent, BitsConsistent, GridConsistent, ScoresConsistent, h]

theorem consistent_classified {s : State} (h : s.stage = .classified) : Consistent s ↔
    (s.tlen ≠ 0 ∧ s.mode = chosenMode s) ∧ s.bits = [] ∧ s.grid = Grid.allUnset ∧ NoScores s := by
  simp [Consistent, ModeConsistent, BitsConsistent, GridConsistent, ScoresConsistent, h]

theorem consistent_encoded {s : State} (h : s.stage = .encoded) : Consistent s ↔
    (s.tlen ≠ 0 ∧ s.mode = chosenMode s) ∧ EncodesTo s s.bits ∧ s.grid = Grid.allUnset ∧ NoScores s := by
  simp [Consistent, ModeConsistent, BitsConsistent, GridConsistent, ScoresConsistent, h]

theorem consistent_redundant {s : State} (h : s.stage = .redundant) : Consistent s ↔
    (s.tlen ≠ 0 ∧ s.mode = chosenMode s) ∧ FullSequence s s.bits ∧ s.grid = Grid.allUnset
      ∧ NoScores s := by
  simp [Consistent, ModeConsistent, BitsConsistent, GridConsistent, ScoresConsistent, FullSequence, h]

theorem consistent_structured {s : State} (h : s.stage = .structured) : Consistent s ↔
    (s.tlen ≠ 0 ∧ s.mode = chosenMode s) ∧ FullSequence s s.bits ∧ s.grid = structuralGrid
      ∧ NoScores s := by
  simp [Consistent, ModeConsistent, BitsConsistent, GridConsistent, ScoresConsistent, FullSequence, h]

theorem consistent_placed {s : State} (h : s.stage = .placed) : Consistent s ↔
    (s.tlen ≠ 0 ∧ s.mode = chosenMode s) ∧ FullSequence s s.bits ∧ s.grid = placedGrid s.bits
      ∧ NoScores s := by
  simp [Consistent, ModeConsistent, BitsConsistent, GridConsistent, ScoresConsistent, FullSequence, h]

theorem consistent_done {s : State} (h : s.stage = .done) : Consistent s ↔
    (s.tlen ≠ 0 ∧ s.mode = chosenMode s) ∧ FullSequence s s.bits
      ∧ s.grid = applyMask (params.maskFn (bestMask s.pen)) (placedGrid s.bits)
      ∧ s.pen = scores params.maskFn (placedGrid s.bits)
      ∧ s.maskSel = BitVec.ofNat 3 (bestMask s.pen).val := by
  simp [Consistent, ModeConsistent, BitsConsistent, GridConsistent, ScoresConsistent, FullSequence, h]

/-! ### What the invariant reads -/

/-- `Consistent` reads neither `ERR` nor the host's side of the interface. -/
theorem consistent_congr {s t : State} (h : Consistent s) (h1 : t.mode = s.mode) (h2 : t.level = s.level)
    (h3 : t.tlen = s.tlen) (h4 : t.text = s.text) (h5 : t.modeReq = s.modeReq) (h6 : t.bits = s.bits)
    (h7 : t.grid = s.grid) (h8 : t.pen = s.pen) (h9 : t.maskSel = s.maskSel) (h10 : t.stage = s.stage) :
    Consistent t := by
  have hc := chosenMode_congr h5 h3 h4
  have he := encodesTo_congr h1 h2 h3 h4
  obtain ⟨a, b, c, d⟩ := h
  refine ⟨?_, ?_, ?_, ?_⟩
  · unfold ModeConsistent at *
    rw [h10, h1, h3, hc]
    exact a
  · unfold BitsConsistent at *
    rw [h10]
    cases hh : s.stage <;> simp only [hh] at b ⊢ <;> simp only [he, h6, h2] <;> exact b
  · unfold GridConsistent at *
    rw [h10]
    cases hh : s.stage <;> simp only [hh] at c ⊢ <;> simp only [h6, h7, h8] <;> exact c
  · unfold ScoresConsistent NoScores at *
    rw [h10, h8, h9, h6]
    exact d

theorem consistent_frame {s : State} (h : Consistent s) (e : ErrCode) (ho : List HostEvent)
    (r : List Word) (n : Nat) :
    Consistent { s with err := e, host := ho, reads := r, resets := n } :=
  consistent_congr h rfl rfl rfl rfl rfl rfl rfl rfl rfl rfl

/-- Recording an error keeps the invariant (R208). -/
theorem consistent_raise {s : State} (h : Consistent s) (e : ErrCode) : Consistent (raise e s) :=
  consistent_frame h e s.host s.reads s.resets

end Sys2Proof.Machine
end

