-- ==== Sys2Proof/Tests/Slice0.lean ====
section
/-! SUPPORT. The model's own tests (`test_…`, expected values from the vectors of
`spec/95_test_vectors.md` and the encodings of `spec/30_encoding.md`) and, for every statement that has
hypotheses, a concrete state that meets them (`witness_…`). -/

namespace Sys2Proof.Tests

open Sys2Proof.Machine Sys2Proof.Claims

/-! ### Small states -/

/-- `TEXT` with the given characters in its first cells. -/
def textOf (t : List Byte) : Vector Byte 255 := Vector.ofFn fun i => t.getD i.val 0

/-- The reset state with a text, a level and a mode request written. -/
def ready (t : List Byte) (level : Byte) (req : BitVec 4) : State :=
  { State.reset with text := textOf t, tlen := BitVec.ofNat 8 t.length, level := level, modeReq := req }

/-- The characters of `"12345"`. -/
def digits5 : List Byte := [0x31, 0x32, 0x33, 0x34, 0x35]

/-- A state at a stage, with a mode. -/
def at' (st : Stage) (m : BitVec 4) (s : State) : State := { s with stage := st, mode := m }

/-- A state with an error recorded. -/
def failed (e : ErrCode) (s : State) : State := { s with err := e }

/-- A state with pending host accesses. -/
def pending (h : List HostEvent) (s : State) : State := { s with host := h }

/-- One observation of a next state. -/
def seen {α : Type} (f : State → α) (r : Result) : Option α :=
  match r with
  | .next s => some (f s)
  | .fault _ => none
  | .refused _ => none

/-- The codewords `j` to `j + n - 1` of the window. -/
def window (j n : Nat) (s : State) : List Nat :=
  (List.range n).map fun i => (memRead (BitVec.ofNat 12 (0x200 + j + i)) s).toNat

/-- A grid of one module value. -/
def plainGrid (m : Module) : Grid := Vector.replicate 33 (Vector.replicate 33 m)

/-! ### Well-formedness: one ill-formed term for each check -/

theorem test_wf_reserved_field_refused :
    CommandWord.reservedFieldZero 0x0010 = false ∧ CommandWord.wf 0x0010 = false
      ∧ decode 0x0010 = .error .reservedField := ⟨rfl, rfl, rfl⟩

theorem test_wf_reserved_op_refused :
    CommandWord.opAssigned 0x0009 = false ∧ CommandWord.wf 0x0009 = false
      ∧ decode 0x0009 = .error .reservedOp := ⟨rfl, rfl, rfl⟩

theorem test_wf_long_text_line_refused :
    Line.wf (.text (List.replicate 256 0x41)) = false ∧ Line.wf (.text (List.replicate 255 0x41)) = true := by
  constructor <;> rw [Line.wf, List.length_replicate] <;> rfl

/-! ### Decoding: the words of R71 written out from R70 (`rsv` twelve zeros, `op` four bits) -/

theorem test_decode_nop : decode 0b0000000000000000 = .ok .nop := rfl
theorem test_decode_cls : decode 0b0000000000000001 = .ok .cls := rfl
theorem test_decode_enc : decode 0b0000000000000010 = .ok .enc := rfl
theorem test_decode_red : decode 0b0000000000000011 = .ok .red := rfl
theorem test_decode_str : decode 0b0000000000000100 = .ok .str := rfl
theorem test_decode_plc : decode 0b0000000000000101 = .ok .plc := rfl
theorem test_decode_msk : decode 0b0000000000000110 = .ok .msk := rfl
theorem test_decode_gen : decode 0b0000000000000111 = .ok .gen := rfl
theorem test_decode_clr : decode 0b0000000000001000 = .ok .clr := rfl

/-- V52: words that are no command. -/
theorem test_decode_reserved_words :
    [0x0009, 0x000F, 0x0010, 0x0100, 0x0018, 0x8007, 0xFFFF].all
      (fun n => (decodeTableWord 16 n).isNone) = true := by decide

/-! ### One step per command -/

/-- V57: `NOP` with an error recorded changes nothing. -/
theorem test_nop_keeps_error :
    seen (fun s => (s.stage, s.err)) (exec .nop (failed .eSeq State.reset)) = some (.idle, .eSeq) := by decide

/-- V9: `"12345"` is classified Numeric. -/
theorem test_cls_numeric :
    seen (fun s => (s.mode, s.stage)) (exec .cls (ready digits5 1 0)) = some (1, .classified) := by
  decide +kernel

/-- V9: the empty text raises `E_EMPTY`. -/
theorem test_cls_empty :
    seen (fun s => (s.mode, s.stage, s.err)) (exec .cls (ready [] 1 8)) = some (0, .idle, .eEmpty) := by
  decide +kernel

/-- V10: the data codewords of `"12345"` at M. -/
theorem test_enc_12345 :
    seen (fun s => (blen s, window 0 7 s)) (exec .enc (at' .classified 1 (ready digits5 1 0)))
      = some (512, [0x10, 0x14, 0x7B, 0x5A, 0x00, 0xEC, 0x11]) := by decide +kernel

/-- V19e: `MODE = 1`, `"12A"` raises `E_CHAR`. -/
theorem test_enc_bad_character :
    seen (fun s => (blen s, s.stage, s.err)) (exec .enc (at' .classified 1 (ready [0x31, 0x32, 0x41] 1 1)))
      = some (0, .classified, .eChar) := by decide +kernel

/-- V20: the redundancy codewords of `"12345"` at M. -/
theorem test_red_12345 :
    redundancy ([0x10, 0x14, 0x7B, 0x5A, 0x00] ++ (List.replicate 29 [0xEC, 0x11]).flatten ++ [0xEC]) 16
      = [0x01, 0xF8, 0x6A, 0xB6, 0x11, 0, 0, 0, 0, 0, 0, 0, 0, 0, 0, 0] := by decide +kernel

/-- V20: `RED` at M appends 128 bits to 512. -/
theorem test_red_length :
    seen (fun s => (blen s, s.stage))
      (exec .red { State.reset with bits := List.replicate 512 true, stage := .encoded })
      = some (640, .redundant) := by decide +kernel

/-- V30: single cells of the grid after `STR`. -/
theorem test_str_cells :
    seen (fun s => [s.grid.cell 0 0, s.grid.cell 1 1, s.grid.cell 2 2, s.grid.cell 7 7, s.grid.cell 0 25,
        s.grid.cell 6 8, s.grid.cell 6 9, s.grid.cell 25 8, s.grid.cell 8 8, s.grid.cell 32 32])
      (exec .str (at' .redundant 1 State.reset))
      = some [.dark, .light, .dark, .light, .light, .dark, .light, .dark, .unset, .unset] := by decide +kernel

/-- V31: the first bits of a stream, 1, 0, 1, 1, go to `(32,32)`, `(32,31)`, `(31,32)`, `(31,31)`. -/
theorem test_plc_first_cells :
    seen (fun s => [s.grid.cell 32 32, s.grid.cell 32 31, s.grid.cell 31 32, s.grid.cell 31 31,
        s.grid.cell 30 32])
      (exec .plc { State.reset with bits := [true, false, true, true], grid := structuralGrid,
                                    stage := .structured })
      = some [.dark, .light, .dark, .dark, .light] := by decide +kernel

/-- V44: the penalty of short lines. -/
theorem test_msk_line_penalty :
    [5, 4, 7, 33].map (fun n => linePenalty (List.replicate n .light)) = [3, 0, 5, 31]
      ∧ linePenalty (List.replicate 5 .light ++ List.replicate 5 .dark) = 6
      ∧ linePenalty (List.replicate 12 .light ++ [.dark] ++ List.replicate 20 .light) = 28 := by
  decide +kernel

/-- V46: the eight predicates at `(9, 9)` and `(31, 31)`. -/
theorem test_msk_predicates :
    ((List.finRange 8).map fun k => params.maskFn k 9 9) = [true, false, true, true, false, false, false, true]
      ∧ ((List.finRange 8).map fun k => params.maskFn k 31 31)
        = [true, false, false, false, false, false, true, false] := by decide

/-- V53: `GEN` on an empty text reports `E_EMPTY`, before the bad request. -/
theorem test_gen_empty :
    seen (fun s => (s.stage, s.err, s.mode)) (exec .gen (ready [] 1 8)) = some (.idle, .eEmpty, 0) := by
  decide +kernel

/-- V53: `GEN` with a request that names no mode stops in `ENC`, keeping the mode. -/
theorem test_gen_bad_mode :
    seen (fun s => (s.stage, s.err, s.mode)) (exec .gen (ready digits5 0 3)) = some (.classified, .eMode, 3) := by
  decide +kernel

/-- V56: `CLR` clears mode, stage and error, and keeps the operands. -/
theorem test_clr :
    seen (fun s => (s.mode, s.stage, s.err, s.tlen, s.level))
      (exec .clr (failed .eMode (at' .classified 8 (ready digits5 3 8)))) = some (0, .idle, .noError, 5, 3) := by
  decide +kernel

/-! ### One step of the host interface -/

/-- V59: a write to `LEVEL` stores the low 8 bits. -/
theorem test_level_truncates :
    seen (fun s => s.level) (step (pending [.write 0x003 0x0103] State.reset)) = some 3 := by decide

/-- V50: `STATUS` at `STAGE = 6` with and without an error. -/
theorem test_status :
    memRead 0x001 (at' .done 1 State.reset) = 0x16 ∧ memRead 0x001 (failed .eCmd (at' .done 1 State.reset)) = 0x1E := by
  decide

/-- A word placed with `withFetchWord` is what the next step runs. -/
theorem test_fetch_word :
    seen (fun s => (s.err, s.host)) (step (State.reset.withFetchWord 16 1)) = some (.eEmpty, []) := by decide

/-! ### Consistent states at every stage -/

/-- The text `"1"` at M, Numeric by classification. -/
def one : State := ready [0x31] 1 0

/-- Its data sequence, from R107, R108, R113 to R115. -/
def oneData : BitSeq := paddedSequence .numeric 512 [0x31]

def oneClassified : State := at' .classified 1 one
def oneEncoded : State := { at' .encoded 1 one with bits := oneData }
def oneFull : State := { at' .redundant 1 one with bits := appendRedundancy 16 oneData }
def oneStructured : State := { at' .structured 1 oneFull with grid := structuralGrid }
def onePlaced : State := { at' .placed 1 oneFull with grid := placedGrid oneFull.bits }
def oneDone : State :=
  { at' .done 1 oneFull with
    pen := scores params.maskFn (placedGrid oneFull.bits)
    grid := applyMask (params.maskFn (bestMask (scores params.maskFn (placedGrid oneFull.bits))))
      (placedGrid oneFull.bits)
    maskSel := BitVec.ofNat 3 (bestMask (scores params.maskFn (placedGrid oneFull.bits))).val }

theorem one_mode : chosenMode one = 1 := by decide +kernel

theorem one_encodes : encodeText 1 1 one.tlen (chars one) = .ok oneData := by
  have h : (match encodeText 1 1 one.tlen (chars one) with
    | .ok d => some d
    | .error _ => none) = some oneData := by decide +kernel
  cases hx : encodeText 1 1 one.tlen (chars one) with
  | error e => rw [hx] at h; cases h
  | ok d => rw [hx] at h; cases h; rfl

theorem one_nonempty : one.tlen ≠ 0 := by decide

theorem oneFull_bits : oneFull.bits = appendRedundancy 16 oneData := by rw [oneFull]

theorem nred_one : params.nred 1 = 16 := rfl

theorem one_full (s : State) (h1 : s.mode = 1) (h2 : s.level = 1) (h3 : s.tlen = one.tlen)
    (h4 : s.text = one.text) : FullSequence s oneFull.bits :=
  ⟨oneData, by rw [EncodesTo, h1, h2, h3, chars_congr h4 h3]; exact one_encodes, by rw [oneFull_bits, h2, nred_one]⟩

theorem witness_consistent_idle : Consistent one := by
  rw [consistent_idle rfl]
  exact ⟨rfl, rfl, rfl, rfl, rfl⟩

theorem witness_consistent_classified : Consistent oneClassified := by
  rw [consistent_classified rfl]
  exact ⟨⟨one_nonempty, one_mode.symm⟩, rfl, rfl, rfl, rfl⟩

theorem witness_consistent_encoded : Consistent oneEncoded := by
  rw [consistent_encoded rfl]
  exact ⟨⟨one_nonempty, one_mode.symm⟩, one_encodes, rfl, rfl, rfl⟩

theorem witness_consistent_redundant : Consistent oneFull := by
  rw [consistent_redundant rfl]
  exact ⟨⟨one_nonempty, one_mode.symm⟩, one_full _ rfl rfl rfl rfl, rfl, rfl, rfl⟩

theorem witness_consistent_structured : Consistent oneStructured := by
  rw [consistent_structured rfl, show oneStructured.bits = oneFull.bits by rw [oneStructured, at']]
  exact ⟨⟨one_nonempty, one_mode.symm⟩, one_full _ rfl rfl rfl rfl, rfl, rfl, rfl⟩

theorem witness_consistent_placed : Consistent onePlaced := by
  rw [consistent_placed rfl, show onePlaced.bits = oneFull.bits by rw [onePlaced, at']]
  exact ⟨⟨one_nonempty, one_mode.symm⟩, one_full _ rfl rfl rfl rfl, rfl, rfl, rfl⟩

theorem witness_consistent_done : Consistent oneDone := by
  rw [consistent_done rfl, show oneDone.bits = oneFull.bits by rw [oneDone, at']]
  exact ⟨⟨one_nonempty, one_mode.symm⟩, one_full _ rfl rfl rfl rfl, rfl, rfl, rfl⟩

/-! ### Witnesses: encoding and acceptance -/

theorem witness_StepRunsDecodedCommand :
    (pending [.write 0x000 0x0001] one).host = .write 0x000 0x0001 :: [] ∧ decode 0x0001 = .ok .cls :=
  ⟨rfl, rfl⟩

theorem witness_DecodeEncodeAgree :
    decode 0x0008 = .ok .clr ∧ IllegalWord 0x0009 ∧ IllegalWord 0x0010 ∧ IllegalWord 0xFFFF
      ∧ ¬ IllegalWord 0x0008 := by
  refine ⟨rfl, ?_, ?_, ?_, ?_⟩ <;> unfold IllegalWord <;> decide

/-- Each of the six cases of acceptance, the reserved words at both ends of their ranges. -/
theorem witness_CommandAcceptanceOrder :
    (pending [.write 0x000 0x0008] (failed .eSeq one)).host = .write 0x000 0x0008 :: []
      ∧ (failed .eSeq one).err ≠ .noError ∧ (0x0018 : Word) ≠ 0x0008
      ∧ one.err = .noError ∧ IllegalWord 0x000F
      ∧ (transition .enc = some (.classified, .encoded) ∧ (0x0002 : Word) = encode .enc
          ∧ one.stage ≠ .classified ∧ oneClassified.stage = .classified ∧ oneClassified.err = .noError
          ∧ ∃ t, exec .enc oneClassified = .next t) := by
  refine ⟨rfl, by decide, by decide, rfl, ?_, rfl, rfl, by decide, rfl, rfl, ?_⟩
  · unfold IllegalWord; decide
  · exact ⟨encBody oneClassified, by rw [exec_enc, accept_ready (need := .classified) (s := oneClassified) rfl rfl]⟩

theorem witness_BlockedWhileErrorRecorded :
    (failed .eCmd one).err ≠ .noError
      ∧ ((0x0007 : Word) ≠ 0x0008 ∧ (pending [.write 0x000 0x0007] one).host = [.write 0x000 0x0007])
      ∧ ((0x003 : Addr) ≠ 0x000 ∧ (pending [.write 0x003 0] one).host = [.write 0x003 0])
      ∧ (pending [.read 0x002] one).host = [.read 0x002] :=
  ⟨by decide, ⟨by decide, rfl⟩, ⟨by decide, rfl⟩, rfl⟩

theorem witness_ErrorLeftOnlyByClearOrReset :
    (failed .eCmd one).err ≠ .noError
      ∧ (ClearsOrResets (pending [.reset] (failed .eCmd one))
          ∧ ∃ t, step (pending [.reset] (failed .eCmd one)) = .next t)
      ∧ (¬ ClearsOrResets (pending [.write 0x000 0x0007] (failed .eCmd one))
          ∧ ∃ t, step (pending [.write 0x000 0x0007] (failed .eCmd one)) = .next t) := by
  refine ⟨by decide, ⟨⟨[], Or.inr rfl⟩, _, step_reset rfl⟩, ?_, ?_⟩
  · rintro ⟨rest, h | h⟩ <;> cases h
  · exact ⟨_, by rw [step_write rfl, memWrite_cmd, issueWord]; exact exec_of_err (i := .gen) (by decide) (by decide)⟩

/-- An error of `CLS`, one of `GEN` whose `CLS` fails and one whose `CLS` succeeded, and a reserved
word. -/
theorem witness_ErrorEntryChangesErrOnly :
    State.reset.err = .noError ∧ seen (fun t => t.err) (exec .cls State.reset) = some .eEmpty
      ∧ seen (fun t => t.err) (exec .gen State.reset) = some .eEmpty
      ∧ seen (fun t => t.err) (exec .cls (ready digits5 0 3)) = some .noError
      ∧ seen (fun t => (t.err, t.stage)) (exec .gen (ready digits5 0 3)) = some (.eMode, .classified)
      ∧ (pending [.write 0x000 0x0010] one).host = .write 0x000 0x0010 :: [] ∧ one.err = .noError
      ∧ IllegalWord 0x0010 := by
  refine ⟨rfl, by decide, by decide, by decide +kernel, by decide +kernel, rfl, rfl, ?_⟩
  unfold IllegalWord
  decide

theorem witness_StageTransitionTable :
    one.err = .noError ∧ transition .red = some (.encoded, .redundant) ∧ oneEncoded.stage = .encoded
      ∧ one.stage ≠ .encoded
      ∧ seen (fun t => (t.stage, t.err)) (exec .red one) = some (.idle, .eSeq)
      ∧ seen (fun t => (t.stage, t.err)) (exec .nop one) = some (.idle, .noError)
      ∧ seen (fun t => (t.stage, t.err)) (exec .clr oneEncoded) = some (.idle, .noError)
      ∧ seen (fun t => (t.stage, t.err)) (exec .cls one) = some (.classified, .noError)
      ∧ seen (fun t => (t.stage, t.err)) (exec .enc (at' .classified 8 one)) = some (.classified, .eMode) := by
  refine ⟨rfl, rfl, rfl, by decide, ?_, ?_, ?_, ?_, ?_⟩ <;> decide +kernel

/-! ### Witnesses: `CLS`, `ENC`, `GEN` -/

/-- The character lists of the five clauses, and that each is the text of a state at `STAGE = 0`. -/
theorem chars_ready_one : chars one = [0x31] := by decide +kernel

theorem witness_ClsChoosesMode :
    one.err = .noError ∧ one.stage = .idle ∧ one.tlen ≠ 0
      ∧ State.reset.tlen = 0 ∧ (ready [0x31] 1 15).modeReq ≠ 0 ∧ one.modeReq = 0
      ∧ Covers .numeric (chars one)
      ∧ (¬ Covers .numeric (chars (ready [0x3A] 1 0)) ∧ Covers .alphanumeric (chars (ready [0x3A] 1 0)))
      ∧ ¬ Covers .alphanumeric (chars (ready [0x61] 1 0)) := by
  have h1 : chars (ready [0x3A] 1 0) = [0x3A] := by decide +kernel
  have h2 : chars (ready [0x61] 1 0) = [0x61] := by decide +kernel
  rw [chars_ready_one, h1, h2]
  refine ⟨rfl, rfl, by decide, rfl, by decide, rfl, ?_, ⟨?_, ?_⟩, ?_⟩ <;>
    simp only [Covers, DigitCode, List.forall_mem_singleton] <;> decide

theorem witness_ClassificationRule : ([0x30, 0x39] : List Byte) ≠ [] := by decide

/-- Each mode at a text that fits, the Byte text exactly filling level H. -/
theorem witness_EncBuildsSequence :
    oneClassified.err = .noError ∧ oneClassified.stage = .classified ∧ oneClassified.mode = modeCode .numeric
      ∧ Covers .numeric (chars oneClassified) ∧ hp .numeric oneClassified.tlen.toNat ≤ params.cap 1
      ∧ hp .alphanumeric 50 = params.cap 3 ∧ hp .numeric 111 = params.cap 2 ∧ hp .byte 34 ≤ params.cap 3 := by
  have h : chars oneClassified = [0x31] := by decide +kernel
  rw [h]
  refine ⟨rfl, rfl, rfl, ?_, by decide, by decide, by decide, by decide⟩
  simp only [Covers, DigitCode, List.forall_mem_singleton]
  decide

/-- The three errors: a mode value at each side of the coded ones, a character outside the set, one
character too many. -/
theorem witness_EncRaisesFirstError :
    ((0 : BitVec 4) ≠ 1 ∧ (8 : BitVec 4) ≠ 4 ∧ (15 : BitVec 4) ≠ 2)
      ∧ ((at' .classified 1 (ready [0x3A] 1 1)).mode = modeCode .numeric
          ∧ ¬ Covers .numeric (chars (at' .classified 1 (ready [0x3A] 1 1))))
      ∧ ((at' .classified 4 (ready (List.replicate 35 0x61) 3 0)).mode = modeCode .byte
          ∧ Covers .byte (chars (at' .classified 4 (ready (List.replicate 35 0x61) 3 0)))
          ∧ params.cap 3 < hp .byte 35) := by
  have h : chars (at' .classified 1 (ready [0x3A] 1 1)) = [0x3A] := by decide +kernel
  rw [h]
  refine ⟨by decide, ⟨rfl, ?_⟩, rfl, trivial, by decide⟩
  simp only [Covers, DigitCode, List.forall_mem_singleton]
  decide

theorem witness_ClassifiedModeCoversItsText :
    one.err = .noError ∧ one.stage = .idle ∧ one.tlen ≠ 0 ∧ one.modeReq = 0 := ⟨rfl, rfl, one_nonempty, rfl⟩

/-- Both sides of a tabulated length, at H in Byte mode. -/
theorem witness_LongestTextThatFits :
    (at' .classified 4 (ready (List.replicate 34 0x61) 3 0)).tlen.toNat ≤ longestText .byte 3
      ∧ longestText .byte 3 < (at' .classified 4 (ready (List.replicate 35 0x61) 3 0)).tlen.toNat
      ∧ (at' .classified 4 (ready (List.replicate 34 0x61) 3 0)).mode = modeCode .byte
      ∧ Covers .byte (chars (at' .classified 4 (ready (List.replicate 34 0x61) 3 0))) :=
  ⟨by decide, by decide, rfl, trivial⟩

theorem witness_GenCompletes :
    one.err = .noError ∧ one.stage = .idle ∧ one.tlen ≠ 0 ∧ (one.modeReq = 0 ∧ classify (chars one) = .numeric)
      ∧ (ready [0x31] 1 4).modeReq = modeCode .byte
      ∧ Covers .numeric (chars one) ∧ hp .numeric one.tlen.toNat ≤ params.cap one.level := by
  rw [chars_ready_one]
  refine ⟨rfl, rfl, one_nonempty, ⟨rfl, by decide⟩, rfl, ?_, by decide⟩
  simp only [Covers, DigitCode, List.forall_mem_singleton]
  decide

/-! ### Witnesses: `RED`, `STR`, `PLC`, `MSK` -/

theorem witness_RedAppendsRedundancy : oneEncoded.err = .noError ∧ oneEncoded.stage = .encoded := ⟨rfl, rfl⟩

theorem witness_RedundancyIsXorFold : 0 < 28 ∧ 27 < 28 := by decide

/-- A full data sequence at every level, both sides of the set's end among them. -/
theorem witness_RedLengths :
    ∀ l ∈ ([0, 1, 2, 3, 4, 255] : List Byte),
      ({ State.reset with level := l, bits := List.replicate (params.cap l) true, stage := .encoded }
        : State).bits.length = params.cap l := by
  intro l _
  simp

theorem witness_StrStampsStructure : oneFull.err = .noError ∧ oneFull.stage = .redundant := ⟨rfl, rfl⟩

/-- A stream shorter than the grid; an Unset cell in the scan order, one outside it, a stamped cell. -/
theorem witness_PlcPlacesBitsInOrder :
    oneStructured.err = .noError ∧ oneStructured.stage = .structured
      ∧ oneStructured.grid.cell 0 0 ≠ .unset ∧ oneStructured.grid.cell 8 8 = .unset
      ∧ ((scanOrder.filter fun q => oneStructured.grid.cell q.1 q.2 == .unset)[0]?) = some (32, 32)
      ∧ (Grid.allUnset.cell 0 6 = .unset ∧ ((0, 6) : Fin 33 × Fin 33) ∉ scanOrder) := by
  have h : oneStructured.grid = structuralGrid := rfl
  rw [h]
  refine ⟨rfl, rfl, by decide +kernel, by decide +kernel, by decide +kernel, by simp, ?_⟩
  rw [scanOrder_pairs]
  decide +kernel

theorem witness_MskScoresAndApplies :
    onePlaced.err = .noError ∧ onePlaced.stage = .placed ∧ onePlaced.grid.binary = true :=
  ⟨rfl, rfl, zeroFill_binary _⟩

/-- A state of each clause: one with an Unset cell, one that is consistent. -/
theorem witness_MskStopsOnUnsetCell :
    ((at' .placed 1 State.reset).stage = .placed ∧ (at' .placed 1 State.reset).err = .noError
      ∧ ∃ r c : Fin 33, (at' .placed 1 State.reset).grid.cell r c = .unset)
      ∧ onePlaced.stage = .placed ∧ Consistent onePlaced :=
  ⟨⟨rfl, rfl, 0, 0, cell_allUnset 0 0⟩, rfl, witness_consistent_placed⟩

/-- A binary grid, an eligible cell of each module, a cell that is not eligible; a consistent state at
`STAGE = 5`. -/
theorem witness_MaskFlipsEligibleCells :
    (plainGrid .light).binary = true ∧ (plainGrid .light).cell 9 9 = .light
      ∧ (plainGrid .dark).cell 9 9 = .dark ∧ eligible 9 9 = true ∧ params.maskFn 0 9 9 = true
      ∧ eligible 8 8 = false ∧ Consistent onePlaced ∧ onePlaced.stage = .placed :=
  ⟨by decide +kernel, by decide +kernel, by decide +kernel, by decide +kernel, by decide +kernel,
    by decide +kernel, witness_consistent_placed, rfl⟩

theorem witness_StructuralCellsNotEligible : structuralGrid.cell 25 8 ≠ .unset := by decide +kernel

/-! ### Witnesses: bits, parameters, the host interface -/

theorem witness_CodewordExpansion :
    (8 * 0 + 8 ≤ ([true, false, true, false, true, false, true, false] : BitSeq).length)
      ∧ 0 < ([0xEC] : List Byte).length := by decide

theorem witness_ParameterTables : 3 < (4 : Byte).toNat ∧ 3 < (255 : Byte).toNat := by decide

/-- The lock open and closed (by the stage, by an error), the first and last operand address. -/
theorem witness_OperandWritesObeyLock :
    (pending [.write 0x003 0xFFFF] one).host = .write 0x003 0xFFFF :: []
      ∧ (one.stage = .idle ∧ one.err = .noError)
      ∧ (0x100 : Addr).toNat = 0x100 + (0 : Fin 255).val ∧ (0x1FE : Addr).toNat = 0x100 + (254 : Fin 255).val
      ∧ ¬ (oneClassified.stage = .idle ∧ oneClassified.err = .noError)
      ∧ ¬ ((failed .eSeq one).stage = .idle ∧ (failed .eSeq one).err = .noError)
      ∧ OperandAddr 0x003 ∧ OperandAddr 0x100 ∧ OperandAddr 0x1FE := by
  refine ⟨rfl, ⟨rfl, rfl⟩, by decide, by decide, by decide, by decide, ?_, ?_, ?_⟩ <;>
    unfold OperandAddr <;> decide

/-- V58: the first and last address of every reserved range; read-only addresses at the ends of theirs. -/
theorem witness_ReservedAndReadOnlyAddresses :
    (∀ a ∈ ([0x00B, 0x00F, 0x018, 0x0FF, 0x1FF, 0x25A, 0x3FF, 0x841, 0xFFF] : List Addr),
        ReservedAddr a ∧ a ≠ 0x000 ∧ ¬ OperandAddr a)
      ∧ (∀ a ∈ ([0x001, 0x002, 0x006, 0x00A, 0x010, 0x017, 0x200, 0x259, 0x400, 0x840] : List Addr),
        ¬ ReservedAddr a ∧ a ≠ 0x000 ∧ ¬ OperandAddr a)
      ∧ (pending [.write 0x001 1] one).host = .write 0x001 1 :: []
      ∧ ¬ (OperandAddr 0x005 ∧ oneClassified.stage = .idle ∧ oneClassified.err = .noError)
      ∧ (pending [.write 0x005 2] oneClassified).host = .write 0x005 2 :: [] := by
  refine ⟨?_, ?_, rfl, ?_, rfl⟩
  · simp [ReservedAddr, OperandAddr]
  · simp [ReservedAddr, OperandAddr]
  · rintro ⟨_, h, _⟩
    cases h

theorem witness_ReadsHaveNoSideEffect :
    (pending [.read 0x400] one).host = .read 0x400 :: []
      ∧ (pending [.write 0x005 2] one).host = .write 0x005 2 :: [] ∧ HostEvent.write 0x005 2 ≠ .reset
      ∧ seen (fun t => t.tlen) (step (pending [.write 0x005 2] one)) = some 2 ∧ one.tlen = 1 := by
  refine ⟨rfl, rfl, by decide, by decide +kernel, by decide +kernel⟩

/-- `BITS` empty and at its bound; the first and last address of a reserved range. -/
theorem witness_RegisterReads :
    State.reset.bits.length ≤ 720
      ∧ ({ State.reset with bits := List.replicate 720 true } : State).bits.length ≤ 720
      ∧ ReservedAddr 0x00B ∧ ReservedAddr 0x00F := by
  refine ⟨by decide, by rw [List.length_replicate], ?_, ?_⟩ <;> unfold ReservedAddr <;> decide

theorem witness_CodewordWindow :
    oneEncoded.err = .noError ∧ oneEncoded.stage = .encoded ∧ oneEncoded.bits.length = params.cap oneEncoded.level
      ∧ exec .red oneEncoded = .next (redBody oneEncoded) ∧ Consistent oneEncoded := by
  refine ⟨rfl, rfl, by decide +kernel, ?_, witness_consistent_encoded⟩
  rw [exec_red, accept_ready (need := .encoded) (s := oneEncoded) rfl rfl]

/-- The empty text and the longest one. -/
theorem witness_TextLineLoadsText :
    State.reset.stage = .idle ∧ State.reset.err = .noError ∧ ([] : List Byte).length ≤ 255
      ∧ (List.replicate 255 (0x41 : Byte)).length ≤ 255
      ∧ (pending (expandLine (.text [0x41])) State.reset).host = expandLine (.text [0x41]) :=
  ⟨rfl, rfl, by decide, by rw [List.length_replicate], rfl⟩

/-- Reset while idle, and reset right after a command word that raised an error. -/
theorem witness_ResetValues :
    (pending [.reset] oneDone).host = .reset :: []
      ∧ (∃ t, step (pending [.reset] oneDone) = .next t)
      ∧ (pending [.write 0x000 0x0002, .reset] one).host = .write 0x000 0x0002 :: .reset :: []
      ∧ ∃ v, step (pending [.write 0x000 0x0002, .reset] one) = .next v := by
  refine ⟨rfl, ⟨_, step_reset rfl⟩, rfl, raise .eSeq (pending [.reset] one), ?_⟩
  rw [step_write rfl, memWrite_cmd, issueWord, show decode 0x0002 = .ok .enc from rfl]
  exact (exec_enc _).trans (accept_of_stage_ne (need := .classified) (s := pending [.reset] one) rfl (by decide))

/-! ### Witnesses: the whole machine -/

/-- `StepKeepsConsistent` and `ConsistentStepIsSafe`: the consistent states above; here a step of one. -/
theorem witness_StepKeepsConsistent :
    Consistent (pending [.write 0x000 0x0003] oneEncoded)
      ∧ step (pending [.write 0x000 0x0003] oneEncoded) = .next (redBody (pending [] oneEncoded)) := by
  refine ⟨consistent_frame witness_consistent_encoded _ _ _ _, ?_⟩
  rw [step_write rfl, memWrite_cmd, issueWord, show decode 0x0003 = .ok .red from rfl]
  exact (exec_red _).trans (accept_ready (need := .encoded) (s := pending [] oneEncoded) rfl rfl)

/-- An error of `CLS` recorded at `STAGE = 0`, one of `ENC` at `STAGE = 1`, and a step that leaves it. -/
theorem witness_StepKeepsErrorCause :
    ErrorHasCause (failed .eEmpty State.reset) ∧ ErrorHasCause (failed .eMode (at' .classified 8 one))
      ∧ step (failed .eEmpty State.reset) = .next (failed .eEmpty State.reset) :=
  ⟨⟨rfl, rfl⟩, ⟨rfl, rfl⟩, step_nil rfl⟩

theorem witness_FinishedSymbolIsSound :
    (Consistent onePlaced ∧ onePlaced.stage = .placed) ∧ (Consistent oneDone ∧ oneDone.stage = .done)
      ∧ structuralModule 0 0 ≠ .unset ∧ structuralModule 25 8 ≠ .unset :=
  ⟨⟨witness_consistent_placed, rfl⟩, ⟨witness_consistent_done, rfl⟩, by decide, by decide⟩

theorem witness_FinishedSymbolIsFrozen :
    oneDone.stage = .done ∧ Consistent oneDone ∧ oneDone.err = .noError ∧ transition .gen ≠ none
      ∧ (pending [.write 0x000 (encode .gen)] oneDone).host = .write 0x000 (encode .gen) :: []
      ∧ (pending [.write 0x000 (encode .nop)] oneDone).host = .write 0x000 (encode .nop) :: []
      ∧ (OperandAddr 0x003 ∧ (pending [.write 0x003 3] oneDone).host = .write 0x003 3 :: [])
      ∧ ¬ ClearsOrResets (pending [.read 0x001] oneDone)
      ∧ ∃ t, step (pending [.read 0x001] oneDone) = .next t := by
  refine ⟨rfl, witness_consistent_done, rfl, by decide, rfl, rfl, ⟨?_, rfl⟩, ?_, _, step_read rfl⟩
  · simp [OperandAddr]
  · rintro ⟨rest, h | h⟩ <;> cases h

theorem step_of_str {s : State} (h : s.host = [.write 0x000 0x0004]) (h1 : s.err = .noError)
    (h2 : s.stage = .redundant) : step s = .next (strBody { s with host := [] }) := by
  rw [step_write h, memWrite_cmd, issueWord, show decode 0x0004 = .ok .str from rfl]
  exact (exec_str _).trans (accept_ready (s := { s with host := [] }) h1 h2)

/-- A step that changes the grid, `STR`. -/
theorem witness_OperandsStableDuringRun :
    (pending [.write 0x000 0x0004] oneFull).stage ≠ .idle
      ∧ ¬ ClearsOrResets (pending [.write 0x000 0x0004] oneFull)
      ∧ ∃ t, step (pending [.write 0x000 0x0004] oneFull) = .next t := by
  refine ⟨by decide, ?_, _, step_of_str rfl rfl rfl⟩
  rintro ⟨rest, h | h⟩ <;> cases h

/-- Two idle states that differ in `TEXT[1]` only, above `TLEN = 1`. -/
theorem witness_UnusedTextIsNeverSeen :
    Consistent one ∧ Consistent { one with text := textOf [0x31, 0x99] } ∧ one.stage = .idle
      ∧ one.err = .noError
      ∧ (∀ i : Fin 255, i.val < one.tlen.toNat → one.text[i] = (textOf [0x31, 0x99])[i])
      ∧ one.text ≠ textOf [0x31, 0x99] := by
  refine ⟨witness_consistent_idle, ?_, rfl, rfl, ?_, ?_⟩
  · rw [consistent_idle rfl]
    exact ⟨rfl, rfl, rfl, rfl, rfl⟩
  · intro i hi
    have h1 : one.tlen.toNat = 1 := by decide +kernel
    have h2 : i = 0 := Fin.ext (by simp only [Fin.val_zero]; omega)
    subst h2
    decide +kernel
  · intro h
    have h1 : one.text[1] = (textOf [0x31, 0x99])[1] := by rw [h]
    revert h1
    decide +kernel

end Sys2Proof.Tests
end

section
/-! The family of `00_scope.md`: the invariant `Consistent` is kept by every step (R3, R37), `Bits(v, n)`
(R15), and the parameter tables (R7 to R9, R74). -/

namespace Sys2Proof.Machine

/-! ### Each stage body leaves what the next stage's invariant says -/

/-- `CLS` on a non-empty text. -/
theorem consistent_chooseMode {s : State} (h : Consistent s) (hs : s.stage = .idle) (ht : s.tlen ≠ 0) :
    Consistent { s with mode := chosenMode s, stage := .classified } := by
  obtain ⟨-, hbits, hgrid, hscores⟩ := (consistent_idle hs).1 h
  exact (consistent_classified rfl).2 ⟨⟨ht, rfl⟩, hbits, hgrid, hscores⟩

/-- `ENC` on operands that have a data sequence. -/
theorem consistent_storeData {s : State} (h : Consistent s) (hs : s.stage = .classified) {d : BitSeq}
    (hd : EncodesTo s d) : Consistent { s with bits := d, stage := .encoded } := by
  obtain ⟨hmode, -, hgrid, hscores⟩ := (consistent_classified hs).1 h
  exact (consistent_encoded rfl).2 ⟨hmode, hd, hgrid, hscores⟩

theorem consistent_clsBody {s : State} (h : Consistent s) (hs : s.stage = .idle) :
    Consistent (clsBody s) := by
  rcases clsBody_cases s with ⟨-, hc⟩ | ⟨ht, hc⟩ <;> rw [hc]
  · exact consistent_raise h .eEmpty
  · exact consistent_chooseMode h hs ht

theorem consistent_encBody {s : State} (h : Consistent s) (hs : s.stage = .classified) :
    Consistent (encBody s) := by
  rcases encBody_cases s with ⟨e, -, he⟩ | ⟨d, hd, he⟩ <;> rw [he]
  · exact consistent_raise h e
  · exact consistent_storeData h hs hd

theorem consistent_redBody {s : State} (h : Consistent s) (hs : s.stage = .encoded) :
    Consistent (redBody s) := by
  obtain ⟨hmode, hbits, hgrid, hscores⟩ := (consistent_encoded hs).1 h
  exact (consistent_redundant (redBody_stage s)).2 ⟨hmode, ⟨s.bits, hbits, redBody_bits s⟩, hgrid, hscores⟩

/-- `MODE` and the full sequence rest on the operands, `MODE` and `BITS` only, which `STR`, `PLC` and `MSK`
leave alone. -/
theorem modeAndSequence_congr {s t : State} (hmode : t.mode = s.mode) (hlevel : t.level = s.level)
    (htlen : t.tlen = s.tlen) (htext : t.text = s.text) (hreq : t.modeReq = s.modeReq)
    (hbits : t.bits = s.bits)
    (h : (s.tlen ≠ 0 ∧ s.mode = chosenMode s) ∧ FullSequence s s.bits) :
    (t.tlen ≠ 0 ∧ t.mode = chosenMode t) ∧ FullSequence t t.bits := by
  rwa [fullSequence_congr hmode hlevel htlen htext, chosenMode_congr hreq htlen htext, hmode, htlen, hbits]

theorem consistent_strBody {s : State} (h : Consistent s) (hs : s.stage = .redundant) :
    Consistent (strBody s) := by
  obtain ⟨hmode, hbits, -, hscores⟩ := (consistent_redundant hs).1 h
  have ⟨hmode', hbits'⟩ := modeAndSequence_congr (strBody_mode s) (strBody_level s) (strBody_tlen s)
    (strBody_text s) (strBody_modeReq s) (strBody_bits s) ⟨hmode, hbits⟩
  exact (consistent_structured (strBody_stage s)).2
    ⟨hmode', hbits', strBody_grid s, by simpa [NoScores] using hscores⟩

theorem consistent_plcBody {s : State} (h : Consistent s) (hs : s.stage = .structured) :
    Consistent (plcBody s) := by
  obtain ⟨hmode, hbits, hgrid, hscores⟩ := (consistent_structured hs).1 h
  have ⟨hmode', hbits'⟩ := modeAndSequence_congr (plcBody_mode s) (plcBody_level s) (plcBody_tlen s)
    (plcBody_text s) (plcBody_modeReq s) (plcBody_bits s) ⟨hmode, hbits⟩
  have hplaced : (plcBody s).grid = placedGrid (plcBody s).bits := by
    rw [plcBody_grid, plcBody_bits, hgrid, placedGrid]
  exact (consistent_placed (plcBody_stage s)).2
    ⟨hmode', hbits', hplaced, by simpa [NoScores] using hscores⟩

theorem consistent_maskedState {s : State} (h : Consistent s) (hs : s.stage = .placed) :
    Consistent (maskedState params.maskFn s) := by
  obtain ⟨hmode, hbits, hgrid, -⟩ := (consistent_placed hs).1 h
  have ⟨hmode', hbits'⟩ := modeAndSequence_congr (maskedState_mode params.maskFn s)
    (maskedState_level _ s) (maskedState_tlen _ s) (maskedState_text _ s) (maskedState_modeReq _ s)
    (maskedState_bits _ s) ⟨hmode, hbits⟩
  refine (consistent_done (maskedState_stage _ s)).2 ⟨hmode', hbits', ?_, ?_, ?_⟩
  · rw [maskedState_grid, maskedState_pen, maskedState_bits, hgrid]
  · rw [maskedState_pen, maskedState_bits, hgrid]
  · rw [maskedState_maskSel, maskedState_pen]

/-- The four stages that cannot fail, after a successful `ENC` (R182). -/
theorem consistent_finishState {s : State} (h : Consistent s) (hs : s.stage = .encoded) :
    Consistent (finishState s) := by
  have hred := consistent_redBody h hs
  have hstr := consistent_strBody hred (redBody_stage _)
  have hplc := consistent_plcBody hstr (strBody_stage _)
  exact consistent_maskedState hplc (plcBody_stage _)

theorem consistent_of_mskBody {s t : State} (h : Consistent s) (hs : s.stage = .placed)
    (hm : mskBody s = .next t) : Consistent t := by
  rcases mskBody_cases s with ⟨-, hc⟩ | ⟨-, hc⟩ <;> rw [hc] at hm
  · exact next_inj hm ▸ consistent_maskedState h hs
  · cases hm

/-- `GEN` stops in the state `CLS` or `ENC` left, with the error recorded, or runs to the end (R182). -/
theorem consistent_of_genBody {s t : State} (h : Consistent s) (he : s.err = .noError)
    (hs : s.stage = .idle) (hg : genBody s = .next t) : Consistent t := by
  rcases genBody_cases s he with ⟨-, hc⟩ | ⟨ht, e, -, -, hc⟩ | ⟨ht, d, hd, hc⟩ <;>
    rw [hc] at hg <;> obtain rfl := next_inj hg
  · exact consistent_raise h .eEmpty
  · exact consistent_raise (consistent_chooseMode h hs ht) e
  · exact consistent_finishState (consistent_storeData (consistent_chooseMode h hs ht) rfl hd) rfl

theorem consistent_clearResults (s : State) : Consistent (clearResults s) :=
  (consistent_idle (clearResults_stage s)).2
    ⟨clearResults_mode s, clearResults_bits s, clearResults_grid s, clearResults_pen s,
      clearResults_maskSel s⟩

/-! ### Commands -/

/-- What holds of a state, of the state with `E_SEQ` recorded, and of what the body answers at the right
stage, holds of every next state `accept` answers (R184). -/
theorem accept_keeps {P : State → Prop} {need : Stage} {body : State → Result} {s t : State} (h : P s)
    (hseq : s.err = .noError → P (raise .eSeq s))
    (hbody : s.err = .noError → s.stage = need → body s = .next t → P t)
    (ha : accept need body s = .next t) : P t := by
  rcases accept_cases need body s with ⟨-, hc⟩ | ⟨he, -, hc⟩ | ⟨he, hs, hc⟩ <;> rw [hc] at ha
  · exact next_inj ha ▸ h
  · exact next_inj ha ▸ hseq he
  · exact hbody he hs ha

/-- `accept_keeps` for a command whose body always answers a next state. -/
theorem consistent_of_accept {need : Stage} {f : State → State} {s t : State} (h : Consistent s)
    (hf : s.stage = need → Consistent (f s)) (ha : accept need (fun s => .next (f s)) s = .next t) :
    Consistent t :=
  accept_keeps (body := fun s => .next (f s)) h (fun _ => consistent_raise h .eSeq)
    (fun _ hs hb => next_inj hb ▸ hf hs) ha

/-- Every command keeps the invariant (R37). -/
theorem consistent_of_exec {i : Instr} {s t : State} (h : Consistent s) (hx : exec i s = .next t) :
    Consistent t := by
  have hseq : s.err = .noError → Consistent (raise .eSeq s) := fun _ => consistent_raise h .eSeq
  cases i
  case nop => exact next_inj hx ▸ h
  case cls => exact consistent_of_accept h (consistent_clsBody h) hx
  case enc => exact consistent_of_accept h (consistent_encBody h) hx
  case red => exact consistent_of_accept h (consistent_redBody h) hx
  case str => exact consistent_of_accept h (consistent_strBody h) hx
  case plc => exact consistent_of_accept h (consistent_plcBody h) hx
  case msk => exact accept_keeps h hseq (fun _ => consistent_of_mskBody h) hx
  case gen => exact accept_keeps h hseq (consistent_of_genBody h) hx
  case clr => exact next_inj hx ▸ consistent_clearResults s

/-! ### Host events -/

theorem consistent_rejectWord {s : State} (h : Consistent s) : Consistent (rejectWord s) := by
  rcases rejectWord_cases s with ⟨-, hc⟩ | ⟨-, hc⟩ <;> rw [hc]
  · exact h
  · exact consistent_raise h .eCmd

theorem consistent_of_issueWord {w : Word} {s t : State} (h : Consistent s)
    (hw : issueWord w s = .next t) : Consistent t := by
  rcases issueWord_cases w s with ⟨i, -, hc⟩ | ⟨x, -, hc⟩ <;> rw [hc] at hw
  · exact consistent_of_exec h hw
  · exact next_inj hw ▸ consistent_rejectWord h

/-- The open lock means `STAGE = 0` (R40). -/
theorem stage_idle_of_inputsOpen {s : State} (h : inputsOpen s = true) : s.stage = .idle := by
  simp only [inputsOpen, Bool.and_eq_true, beq_iff_eq] at h
  exact h.1

/-- At `STAGE = 0` no result register depends on the operands, and at any other stage the lock is closed
(R37, R40). -/
theorem consistent_writeReg {s : State} (h : Consistent s) (r : Reg) (v : Word) :
    Consistent (writeReg r v s) := by
  cases hopen : inputsOpen s with
  | false => rwa [writeReg_locked hopen]
  | true =>
    have hs := stage_idle_of_inputsOpen hopen
    rw [writeReg_frame]
    exact (consistent_idle (by exact hs)).2 ((consistent_idle hs).1 h)

theorem consistent_of_memWrite {a : Addr} {v : Word} {s t : State} (h : Consistent s)
    (hw : memWrite a v s = .next t) : Consistent t := by
  by_cases ha : a = 0
  · subst ha
    exact consistent_of_issueWord h hw
  · rcases memWrite_of_ne ha v s with ⟨r, -, -, hc⟩ | ⟨-, hc⟩ <;> rw [hc] at hw
    · exact next_inj hw ▸ consistent_writeReg h r v
    · exact next_inj hw ▸ h

theorem consistent_hostRead {s : State} (h : Consistent s) (a : Addr) : Consistent (hostRead a s) :=
  consistent_frame h s.err s.host (hostRead a s).reads s.resets

theorem consistent_resetInput (s : State) : Consistent (resetInput s) :=
  (consistent_idle (resetInput_stage s)).2
    ⟨resetInput_mode s, resetInput_bits s, resetInput_grid s, resetInput_pen s, resetInput_maskSel s⟩

theorem consistent_of_serve {e : HostEvent} {s t : State} (h : Consistent s)
    (hv : serve e s = .next t) : Consistent t := by
  cases e with
  | read a => exact next_inj hv ▸ consistent_hostRead h a
  | write a v => exact consistent_of_memWrite h hv
  | reset => exact next_inj hv ▸ consistent_resetInput s

/-- A step with an event pending serves the oldest one (R63). -/
theorem step_cons {s : State} {e : HostEvent} {rest : List HostEvent} (h : s.host = e :: rest) :
    step s = serve e { s with host := rest } := by rw [step, h]

/-- Settles O46: each host event keeps the invariant, and so does taking it off the queue. -/
theorem stepKeepsConsistent : Obligations.StepKeepsConsistent := by
  intro s t h hstep
  cases hhost : s.host with
  | nil =>
    rw [step_nil hhost] at hstep
    exact next_inj hstep ▸ h
  | cons e rest =>
    rw [step_cons hhost] at hstep
    exact consistent_of_serve (consistent_frame h s.err rest s.reads s.resets) hstep

/-! ### Bits and parameters -/

/-- Settles O35: the bits are R15's formula, and `natOfBits` is the reading the statement folds. -/
theorem bitsPrimitive : Obligations.BitsPrimitive := by
  intro v n
  refine ⟨bitsOf_length v n, fun i hi => ?_, natOfBits_bitsOf v n⟩
  have hlen : i < (bitsOf v n).length := by rwa [bitsOf_length]
  rw [List.getD_eq_getElem _ _ hlen, bitsOf_getElem, beq_eq_decide]

/-- R7: a level above 3 has the capacity of level M. -/
theorem capOf_of_three_lt {v : Byte} (h : 3 < v.toNat) : capOf v = 512 := by
  unfold capOf
  split <;> omega

/-- R8: a level above 3 has the redundancy count of level M. -/
theorem nredOf_of_three_lt {v : Byte} (h : 3 < v.toNat) : nredOf v = 16 := by
  unfold nredOf
  split <;> omega

/-- Settles O37: the entries by evaluation, the levels above 3 by the default arms. -/
theorem parameterTables : Obligations.ParameterTables :=
  ⟨rfl, rfl, rfl, rfl, rfl, rfl, rfl, rfl,
    fun _ h => ⟨capOf_of_three_lt h, nredOf_of_three_lt h⟩,
    rfl, rfl, rfl, rfl, rfl, rfl, rfl, rfl⟩

end Sys2Proof.Machine
end

section
/-! The family of `10_state.md`: the address map at the operand registers and the input lock (R40, R52), reset
(R39, R230), what a command and a step change (R33, R37), and the soundness of the finished symbol (R38). -/

namespace Sys2Proof.Machine

open Sys2Proof.Claims

/-! ### Words and the step that runs them -/

/-- A word is its reserved field followed by its operation code (R70). -/
theorem rsv_append_op (w : Word) : CommandWord.rsv w ++ CommandWord.op w = w := by
  unfold CommandWord.rsv CommandWord.op
  exact (BitVec.extractLsb'_append_extractLsb'_eq_extractLsb' rfl).trans BitVec.extractLsb'_eq_self

theorem opcode_of_decodeOp {op : BitVec 4} {i : Instr} (h : decodeOp op = .ok i) : opcode i = op := by
  apply BitVec.eq_of_toNat_eq
  unfold decodeOp at h
  split at h <;> cases h <;> symm <;> assumption

/-- A word that decodes is the encoding of what it decodes to (R70, R71). -/
theorem eq_encode_of_decode {w : Word} {i : Instr} (h : decode w = .ok i) : w = encode i := by
  unfold decode at h
  split at h
  case isTrue hrsv => rw [encode, opcode_of_decodeOp h, ← hrsv, rsv_append_op]
  case isFalse => cases h

theorem issueWord_of_decode {w : Word} {i : Instr} (h : decode w = .ok i) (s : State) :
    issueWord w s = exec i s := by simp only [issueWord, h]

/-- Settles O3: the step takes the event off the queue, and `CMD` issues the word. -/
theorem stepRunsDecodedCommand : Obligations.StepRunsDecodedCommand := by
  intro s rest w i hhost hdecode
  rw [step_write hhost, memWrite_cmd, issueWord_of_decode hdecode]

/-! ### The state after reset -/

/-- Settles O45: at `STAGE = 0` the invariant asks for empty results, which are the reset values. -/
theorem consistentAtReset : Obligations.ConsistentAtReset :=
  (consistent_idle rfl).2 ⟨rfl, rfl, rfl, rfl, rfl⟩

/-- Settles O48: no error is recorded at reset, so none needs a cause. -/
theorem errorCauseAtReset : Obligations.ErrorCauseAtReset := by
  unfold Obligations.ErrorCauseAtReset ErrorHasCause
  trivial

/-! ### What a command leaves alone -/

/-- `t` differs from `s` in the result registers, the stage and the error only: the operand registers and the
host's side of the interface are those of `s`. -/
def ResultsOnly (s t : State) : Prop :=
  t = { s with mode := t.mode, bits := t.bits, grid := t.grid, pen := t.pen, maskSel := t.maskSel,
               stage := t.stage, err := t.err }

theorem resultsOnly_refl (s : State) : ResultsOnly s s := rfl

theorem ResultsOnly.trans {s t u : State} (h1 : ResultsOnly s t) (h2 : ResultsOnly t u) :
    ResultsOnly s u := by
  unfold ResultsOnly at *
  rw [h2, h1]

theorem resultsOnly_raise (e : ErrCode) (s : State) : ResultsOnly s (raise e s) := rfl

theorem resultsOnly_clearResults (s : State) : ResultsOnly s (clearResults s) := rfl

theorem resultsOnly_clsBody (s : State) : ResultsOnly s (clsBody s) := by
  rcases clsBody_cases s with ⟨-, h⟩ | ⟨-, h⟩ <;> rw [h] <;> rfl

theorem resultsOnly_encBody (s : State) : ResultsOnly s (encBody s) := by
  rcases encBody_cases s with ⟨e, -, h⟩ | ⟨d, -, h⟩ <;> rw [h] <;> rfl

theorem resultsOnly_redBody (s : State) : ResultsOnly s (redBody s) := rfl

theorem resultsOnly_strBody (s : State) : ResultsOnly s (strBody s) := rfl

theorem resultsOnly_plcBody (s : State) : ResultsOnly s (plcBody s) := by simp only [ResultsOnly, plcBody]

theorem resultsOnly_maskedState (flips : Fin 8 → Nat → Nat → Bool) (s : State) :
    ResultsOnly s (maskedState flips s) := by simp only [ResultsOnly, maskedState]

theorem resultsOnly_finishState (s : State) : ResultsOnly s (finishState s) :=
  (resultsOnly_redBody s).trans <| (resultsOnly_strBody _).trans <|
    (resultsOnly_plcBody _).trans (resultsOnly_maskedState params.maskFn _)

theorem resultsOnly_of_mskBody {s t : State} (h : mskBody s = .next t) : ResultsOnly s t := by
  rcases mskBody_cases s with ⟨-, hc⟩ | ⟨-, hc⟩ <;> rw [hc] at h
  · exact next_inj h ▸ resultsOnly_maskedState params.maskFn s
  · cases h

theorem resultsOnly_of_genBody {s t : State} (he : s.err = .noError) (h : genBody s = .next t) :
    ResultsOnly s t := by
  rcases genBody_cases s he with ⟨-, hc⟩ | ⟨-, e, -, -, hc⟩ | ⟨-, d, -, hc⟩ <;>
    rw [hc] at h <;> obtain rfl := next_inj h
  · rfl
  · rfl
  · exact (show ResultsOnly s { s with mode := chosenMode s, bits := d, stage := .encoded } from rfl).trans
      (resultsOnly_finishState _)

/-- `accept_keeps` for a command whose body always answers a next state. -/
theorem resultsOnly_of_accept {need : Stage} {f : State → State} {s t : State} (hf : ResultsOnly s (f s))
    (h : accept need (fun s => .next (f s)) s = .next t) : ResultsOnly s t :=
  accept_keeps (body := fun s => .next (f s)) (resultsOnly_refl s) (fun _ => resultsOnly_raise .eSeq s)
    (fun _ _ hb => next_inj hb ▸ hf) h

/-- No command writes an operand register or the host's side of the interface (R71, R180). -/
theorem resultsOnly_of_exec {i : Instr} {s t : State} (h : exec i s = .next t) : ResultsOnly s t := by
  have hseq : s.err = .noError → ResultsOnly s (raise .eSeq s) := fun _ => resultsOnly_raise .eSeq s
  cases i
  case nop => exact next_inj h ▸ resultsOnly_refl s
  case cls => exact resultsOnly_of_accept (resultsOnly_clsBody s) h
  case enc => exact resultsOnly_of_accept (resultsOnly_encBody s) h
  case red => exact resultsOnly_of_accept (resultsOnly_redBody s) h
  case str => exact resultsOnly_of_accept (resultsOnly_strBody s) h
  case plc => exact resultsOnly_of_accept (resultsOnly_plcBody s) h
  case msk => exact accept_keeps (resultsOnly_refl s) hseq (fun _ _ => resultsOnly_of_mskBody) h
  case gen => exact accept_keeps (resultsOnly_refl s) hseq (fun he _ => resultsOnly_of_genBody he) h
  case clr => exact next_inj h ▸ resultsOnly_clearResults s

theorem resultsOnly_rejectWord (s : State) : ResultsOnly s (rejectWord s) := by
  rcases rejectWord_cases s with ⟨-, h⟩ | ⟨-, h⟩ <;> rw [h] <;> rfl

/-- A word written to `CMD`, command or not, writes results, stage and error only. -/
theorem resultsOnly_of_issueWord {w : Word} {s t : State} (h : issueWord w s = .next t) :
    ResultsOnly s t := by
  rcases issueWord_cases w s with ⟨i, -, hc⟩ | ⟨x, -, hc⟩ <;> rw [hc] at h
  · exact resultsOnly_of_exec h
  · exact next_inj h ▸ resultsOnly_rejectWord s

/-! ### The reset input -/

/-- Reset reads only the host's side of the interface (R230, log entry 2). -/
theorem resetInput_congr {s t : State} (hhost : t.host = s.host) (hreads : t.reads = s.reads)
    (hresets : t.resets = s.resets) : resetInput t = resetInput s := by
  simp only [resetInput, hhost, hreads, hresets]

/-- The registers are at the values of R39; `TEXT` is unspecified there. -/
def RegistersReset (s : State) : Prop :=
  s.tlen = 0 ∧ s.level = 1 ∧ s.modeReq = 0 ∧ s.mode = 0 ∧ s.bits = []
    ∧ (∀ r c : Fin 33, s.grid.cell r c = .unset) ∧ (∀ k : Fin 8, s.pen[k] = 0) ∧ s.maskSel = 0
    ∧ s.stage = .idle ∧ s.err = .noError

theorem registersReset_resetInput (s : State) : RegistersReset (resetInput s) :=
  ⟨resetInput_tlen s, resetInput_level s, resetInput_modeReq s, resetInput_mode s, resetInput_bits s,
    fun r c => by rw [resetInput_grid, cell_allUnset], fun k => by simp [resetInput_pen],
    resetInput_maskSel s, resetInput_stage s, resetInput_err s⟩

theorem registersReset_reset : RegistersReset State.reset :=
  ⟨rfl, rfl, rfl, rfl, rfl, cell_allUnset, fun k => by simp [State.reset], rfl, rfl, rfl⟩

/-- Settles O44: the values are those of `resetInput`, and the command before a reset leaves nothing the reset
input reads. -/
theorem resetValues : Obligations.ResetValues := by
  refine ⟨?_, ?_, ?_⟩
  · rintro s (rfl | ⟨u, rest, hhost, hstep⟩)
    · exact registersReset_reset
    · rw [step_reset hhost] at hstep
      exact next_inj hstep ▸ registersReset_resetInput _
  · intro u rest hhost
    exact ⟨_, step_reset hhost, resetInput_host _, resetInput_reads _⟩
  · intro u v w rest hhost hstep
    rw [step_write hhost, memWrite_cmd] at hstep
    have hv := resultsOnly_of_issueWord hstep
    have hvhost : v.host = .reset :: rest := by rw [hv]
    rw [step_reset hvhost, step_reset (s := { u with host := .reset :: rest }) rfl]
    exact congrArg _ (resetInput_congr rfl (by rw [hv]) (by rw [hv]))

/-! ### Operand writes and the input lock -/

theorem inputsOpen_iff (s : State) : inputsOpen s = true ↔ s.stage = .idle ∧ s.err = .noError := by
  simp [inputsOpen]

theorem writeReg_open {s : State} (h : inputsOpen s = true) (v : Word) :
    writeReg .level v s = { s with level := v.setWidth 8 }
    ∧ writeReg .modeReq v s = { s with modeReq := v.setWidth 4 }
    ∧ writeReg .tlen v s = { s with tlen := v.setWidth 8 }
    ∧ ∀ i, writeReg (.text i) v s = { s with text := s.text.set i (v.setWidth 8) } := by
  simp [writeReg, h]

/-- A closed lock makes every write but one to `CMD` change nothing (R40, R53). -/
theorem memWrite_locked {s : State} (h : inputsOpen s = false) {a : Addr} (ha : a ≠ 0) (v : Word) :
    memWrite a v s = .next s := by
  rcases memWrite_of_ne ha v s with ⟨r, -, -, hc⟩ | ⟨-, hc⟩
  · rw [hc, writeReg_locked h]
  · exact hc

theorem memWrite_text {a : Addr} (i : Fin 255) (h : a.toNat = 0x100 + i.val) (v : Word) (s : State) :
    memWrite a v s = .next (writeReg (.text i) v s) := by
  simp only [memWrite, regAt_text i h]

theorem operandAddr_ne_cmd {a : Addr} (h : OperandAddr a) : a ≠ 0 := by
  rintro rfl
  simp [OperandAddr] at h

/-- Settles O38: an open lock stores the low bits in the register the address names, a closed one stores
nothing. -/
theorem operandWritesObeyLock : Obligations.OperandWritesObeyLock := by
  intro s rest a v hhost
  simp only [step_write hhost, BitVec.ofNat_toNat]
  refine ⟨fun hidle => ?_, fun hbusy ha => ?_⟩
  · have hopen : inputsOpen { s with host := rest } = true := (inputsOpen_iff _).2 hidle
    obtain ⟨hlevel, hreq, htlen, htext⟩ := writeReg_open hopen v
    refine ⟨?_, ?_, ?_, fun i hi => ?_⟩
    · rintro rfl; exact congrArg _ hlevel
    · rintro rfl; exact congrArg _ hreq
    · rintro rfl; exact congrArg _ htlen
    · rw [memWrite_text i hi, htext]
  · have hclosed : inputsOpen { s with host := rest } = false :=
      Bool.eq_false_iff.2 fun h => hbusy ((inputsOpen_iff _).1 h)
    exact memWrite_locked hclosed (operandAddr_ne_cmd ha) v

/-! ### What a command changes during a run -/

/-- What command `i` keeps from `s` to `t` while `STAGE ≠ 0` (R37). -/
def KeepsRun (i : Instr) (s t : State) : Prop :=
  t.stage ≠ .idle ∧ t.mode = s.mode ∧ (t.grid ≠ s.grid → i = .str ∨ i = .plc ∨ i = .msk)

theorem keepsRun_self (i : Instr) {s : State} (h : s.stage ≠ .idle) : KeepsRun i s s :=
  ⟨h, rfl, fun hne => absurd rfl hne⟩

theorem keepsRun_raise (i : Instr) {s : State} (h : s.stage ≠ .idle) (e : ErrCode) :
    KeepsRun i s (raise e s) :=
  ⟨h, rfl, fun hne => absurd rfl hne⟩

theorem keepsRun_encBody {s : State} (h : s.stage ≠ .idle) : KeepsRun .enc s (encBody s) := by
  rcases encBody_cases s with ⟨e, -, hc⟩ | ⟨d, -, hc⟩ <;> rw [hc]
  · exact keepsRun_raise .enc h e
  · exact ⟨by simp, rfl, fun hne => absurd rfl hne⟩

theorem keepsRun_redBody (s : State) : KeepsRun .red s (redBody s) :=
  ⟨by simp, redBody_mode s, fun hne => absurd (redBody_grid s) hne⟩

theorem keepsRun_strBody (s : State) : KeepsRun .str s (strBody s) := ⟨by simp, strBody_mode s, by simp⟩

theorem keepsRun_plcBody (s : State) : KeepsRun .plc s (plcBody s) := ⟨by simp, plcBody_mode s, by simp⟩

theorem keepsRun_of_mskBody {s t : State} (h : mskBody s = .next t) : KeepsRun .msk s t := by
  rcases mskBody_cases s with ⟨-, hc⟩ | ⟨-, hc⟩ <;> rw [hc] at h
  · obtain rfl := next_inj h
    exact ⟨by simp, maskedState_mode _ s, by simp⟩
  · cases h

/-- `accept_keeps` for a command whose body always answers a next state. -/
theorem keepsRun_of_accept {i : Instr} {need : Stage} {f : State → State} {s t : State}
    (hs : s.stage ≠ .idle) (hf : KeepsRun i s (f s)) (h : accept need (fun s => .next (f s)) s = .next t) :
    KeepsRun i s t :=
  accept_keeps (body := fun s => .next (f s)) (keepsRun_self i hs) (fun _ => keepsRun_raise i hs .eSeq)
    (fun _ _ hb => next_inj hb ▸ hf) h

/-- Every command but `CLR` keeps a run going, leaves `MODE`, and leaves `GRID` unless it is `STR`, `PLC` or
`MSK`; `CLS` and `GEN` do not get to their bodies (R37, R184). -/
theorem keepsRun_of_exec {i : Instr} {s t : State} (hs : s.stage ≠ .idle) (hi : i ≠ .clr)
    (h : exec i s = .next t) : KeepsRun i s t := by
  have hself := keepsRun_self i hs
  have hseq : s.err = .noError → KeepsRun i s (raise .eSeq s) := fun _ => keepsRun_raise i hs .eSeq
  cases i
  case nop => exact next_inj h ▸ hself
  case cls =>
    rw [exec_cls] at h
    exact accept_keeps hself hseq (fun _ hidle => absurd hidle hs) h
  case enc => exact keepsRun_of_accept hs (keepsRun_encBody hs) h
  case red => exact keepsRun_of_accept hs (keepsRun_redBody s) h
  case str => exact keepsRun_of_accept hs (keepsRun_strBody s) h
  case plc => exact keepsRun_of_accept hs (keepsRun_plcBody s) h
  case msk =>
    rw [exec_msk] at h
    exact accept_keeps hself hseq (fun _ _ => keepsRun_of_mskBody) h
  case gen =>
    rw [exec_gen] at h
    exact accept_keeps hself hseq (fun _ hidle => absurd hidle hs) h
  case clr => exact absurd rfl hi

/-- At a stage where its body does not run, a command changes at most `ERR` (R205, R208). -/
theorem accept_errOnly {need : Stage} {body : State → Result} {s t : State} (hs : s.stage ≠ need)
    (h : accept need body s = .next t) : t = { s with err := t.err } :=
  accept_keeps (P := fun t => t = { s with err := t.err }) rfl (fun _ => rfl)
    (fun _ hneed => absurd hneed hs) h

/-- A command of the transition table is accepted at its stage (R184). -/
theorem exec_eq_accept {i : Instr} {need after : Stage} (h : transition i = some (need, after)) :
    ∃ body, ∀ s, exec i s = accept need body s := by
  cases i <;> cases h
  case cls => exact ⟨_, exec_cls⟩
  case enc => exact ⟨_, exec_enc⟩
  case red => exact ⟨_, exec_red⟩
  case str => exact ⟨_, exec_str⟩
  case plc => exact ⟨_, exec_plc⟩
  case msk => exact ⟨_, exec_msk⟩
  case gen => exact ⟨_, exec_gen⟩

theorem transition_eq_none_iff (i : Instr) : transition i = none ↔ i = .nop ∨ i = .clr := by
  cases i <;> simp [transition]

/-- No command is legal at `STAGE = 6` (R71, R185). -/
theorem transition_from_ne_done {i : Instr} {need after : Stage} (h : transition i = some (need, after)) :
    need ≠ .done := by
  cases i <;> cases h <;> decide

/-- No command but `CLR` changes more than `ERR` at `STAGE = 6` (R37, R185). -/
theorem exec_errOnly_of_done {i : Instr} {s t : State} (hs : s.stage = .done) (hi : i ≠ .clr)
    (h : exec i s = .next t) : t = { s with err := t.err } := by
  cases htr : transition i with
  | none =>
    obtain rfl := ((transition_eq_none_iff i).1 htr).resolve_right hi
    exact next_inj h ▸ rfl
  | some p =>
    obtain ⟨body, hbody⟩ := exec_eq_accept htr
    rw [hbody] at h
    exact accept_errOnly (hs ▸ (transition_from_ne_done htr).symm) h

/-! ### What a step does during a run -/

/-- A step in a run that answers neither `CLR` nor reset either changes nothing but `ERR` and the host's side of
the interface, or runs a command other than `CLR`: the operand registers are locked (R37, R40). -/
theorem step_cases_of_run {s t : State} (hs : s.stage ≠ .idle) (hc : ¬ ClearsOrResets s)
    (h : step s = .next t) :
    (∃ (ho : List HostEvent) (rs : List Word) (e : ErrCode), t = { s with host := ho, reads := rs, err := e })
    ∨ ∃ (i : Instr) (rest : List HostEvent), i ≠ .clr ∧ s.host = .write 0x000 (encode i) :: rest
        ∧ exec i { s with host := rest } = .next t := by
  match hhost : s.host with
  | [] =>
    rw [step_nil hhost] at h
    exact .inl ⟨s.host, s.reads, s.err, (next_inj h).symm⟩
  | .read a :: rest =>
    rw [step_read hhost] at h
    exact .inl ⟨rest, _, s.err, (next_inj h).symm⟩
  | .reset :: rest => exact absurd ⟨rest, .inr hhost⟩ hc
  | .write a w :: rest =>
    rw [step_write hhost] at h
    by_cases ha : a = 0
    · subst ha
      rw [memWrite_cmd] at h
      rcases issueWord_cases w { s with host := rest } with ⟨i, hi, hw⟩ | ⟨x, -, hw⟩ <;> rw [hw] at h
      · obtain rfl := eq_encode_of_decode hi
        refine .inr ⟨i, rest, ?_, rfl, h⟩
        rintro rfl
        exact hc ⟨rest, .inl hhost⟩
      · rcases rejectWord_cases { s with host := rest } with ⟨-, hr⟩ | ⟨-, hr⟩ <;> rw [hr] at h
        · exact .inl ⟨rest, s.reads, s.err, (next_inj h).symm⟩
        · exact .inl ⟨rest, s.reads, .eCmd, (next_inj h).symm⟩
    · have hclosed : inputsOpen { s with host := rest } = false :=
        Bool.eq_false_iff.2 fun hopen => hs (stage_idle_of_inputsOpen hopen)
      rw [memWrite_locked hclosed ha] at h
      exact .inl ⟨rest, s.reads, s.err, (next_inj h).symm⟩

/-- Settles O52: a step in a run is a frame step or a command, and a command writes results only. -/
theorem operandsStableDuringRun : Obligations.OperandsStableDuringRun := by
  intro s t hs hc h
  rcases step_cases_of_run hs hc h with ⟨ho, rs, e, rfl⟩ | ⟨i, rest, hi, hhost, hx⟩
  · exact ⟨hs, rfl, rfl, rfl, rfl, rfl, fun hne => absurd rfl hne, fun _ => rfl⟩
  · have hframe := resultsOnly_of_exec hx
    obtain ⟨hstage, hmode, hgrid⟩ := keepsRun_of_exec (s := { s with host := rest }) hs hi hx
    refine ⟨hstage, by rw [hframe], by rw [hframe], by rw [hframe], by rw [hframe], hmode, fun hne => ?_,
      fun hdone => ?_⟩
    · refine ⟨rest, ?_⟩
      rcases hgrid hne with rfl | rfl | rfl
      · exact .inl hhost
      · exact .inr (.inl hhost)
      · exact .inr (.inr hhost)
    · rw [exec_errOnly_of_done (s := { s with host := rest }) hdone hi hx]

/-! ### The structural grid, by coordinates -/

/-- The stamps of `STR`, one over the other (R140 to R145). -/
def stamped : Cells := stampDarkModule (stampTiming (stampSeparators (stampFinders allocated)))

theorem stampDarkModule_eq (g : Cells) (r c : Nat) :
    stampDarkModule g r c = if r = 25 ∧ c = 8 then .dark else g r c := rfl

theorem stampTiming_eq (g : Cells) (r c : Nat) : stampTiming g r c =
    if r = 6 ∧ 8 ≤ c ∧ c ≤ 24 then timingModule c
    else if c = 6 ∧ 8 ≤ r ∧ r ≤ 24 then timingModule r else g r c := rfl

theorem stampSeparators_eq (g : Cells) (r c : Nat) : stampSeparators g r c =
    if (r = 7 ∧ c ≤ 7) ∨ (c = 7 ∧ r ≤ 7) ∨ (r = 7 ∧ 25 ≤ c) ∨ (c = 25 ∧ r ≤ 7)
      ∨ (r = 25 ∧ c ≤ 7) ∨ (c = 7 ∧ 25 ≤ r) then .light else g r c := rfl

theorem stampFinders_eq (g : Cells) {r c : Nat} (hr : r ≤ 32) (hc : c ≤ 32) : stampFinders g r c =
    if 26 ≤ r ∧ c ≤ 6 then finderModule (r - 26) c
    else if r ≤ 6 ∧ 26 ≤ c then finderModule r (c - 26)
    else if r ≤ 6 ∧ c ≤ 6 then finderModule r c else g r c := by
  simp [stampFinders, stampFinder, Config.size, hr, hc]

/-- Inside its 7 by 7 square a finder is dark on its border and on its 3 by 3 core (R142). -/
theorem finderModule_eq {i j : Nat} : finderModule i j =
    if i = 0 ∨ i = 6 ∨ j = 0 ∨ j = 6 ∨ ((i = 2 ∨ i = 3 ∨ i = 4) ∧ (j = 2 ∨ j = 3 ∨ j = 4)) then .dark
    else .light := by
  have hcore : (2 ≤ i ∧ i ≤ 4 ∧ 2 ≤ j ∧ j ≤ 4) ↔
      (i = 2 ∨ i = 3 ∨ i = 4) ∧ (j = 2 ∨ j = 3 ∨ j = 4) := by omega
  by_cases hborder : i = 0 ∨ i = 6 ∨ j = 0 ∨ j = 6
  · rw [finderModule, if_pos hborder, if_pos (by omega)]
  · rw [finderModule, if_neg hborder]
    simp only [hcore, ← or_assoc] at hborder ⊢
    simp only [hborder, false_or]

/-- The cells of the three finders (R142). -/
def InFinder (r c : Nat) : Prop := (r ≤ 6 ∧ c ≤ 6) ∨ (r ≤ 6 ∧ 26 ≤ c) ∨ (26 ≤ r ∧ c ≤ 6)

/-- No later stamp touches a finder. -/
theorem stamped_of_inFinder {r c : Nat} (h : InFinder r c) : stamped r c = stampFinders allocated r c := by
  unfold InFinder at h
  rw [stamped, stampDarkModule_eq, if_neg (by omega), stampTiming_eq, if_neg (by omega), if_neg (by omega),
    stampSeparators_eq, if_neg (by omega)]

theorem stamped_eq_of_inFinder {r c : Nat} (hr : r ≤ 32) (hc : c ≤ 32) (h : InFinder r c) :
    stamped r c = structuralModule r c := by
  rw [stamped_of_inFinder h, stampFinders_eq allocated hr hc]
  unfold structuralModule
  rcases h with h | h | h
  · rw [if_neg (by omega), if_neg (by omega), if_pos h, if_pos h, finderModule_eq]
  · rw [if_neg (by omega), if_pos h, if_neg (by omega), if_pos h, finderModule_eq]
  · rw [if_pos h, if_neg (by omega), if_neg (by omega), if_pos h, finderModule_eq]

/-- Off the finders the cases of the description, in its order: separators, dark module, timing, nothing. -/
theorem stamped_eq_of_not_inFinder {r c : Nat} (hr : r ≤ 32) (hc : c ≤ 32) (h : ¬ InFinder r c) :
    stamped r c = structuralModule r c := by
  unfold InFinder at h
  have htl : ¬ (r ≤ 6 ∧ c ≤ 6) := by omega
  have htr : ¬ (r ≤ 6 ∧ 26 ≤ c) := by omega
  have hbl : ¬ (26 ≤ r ∧ c ≤ 6) := by omega
  rw [stamped, stampDarkModule_eq, stampTiming_eq, stampSeparators_eq, stampFinders_eq allocated hr hc,
    if_neg hbl, if_neg htr, if_neg htl]
  unfold structuralModule timingModule
  rw [if_neg htl, if_neg htr, if_neg hbl]
  by_cases hsep : r ≤ 7 ∧ (c ≤ 7 ∨ 25 ≤ c)
  · rw [if_neg (by omega), if_neg (by omega), if_neg (by omega), if_pos (by omega), if_pos hsep]
  rw [if_neg hsep]
  by_cases hsep' : 25 ≤ r ∧ c ≤ 7
  · rw [if_neg (by omega), if_neg (by omega), if_neg (by omega), if_pos (by omega), if_pos hsep']
  rw [if_neg hsep']
  by_cases hdark : r = 25 ∧ c = 8
  · rw [if_pos hdark, if_pos hdark]
  rw [if_neg hdark, if_neg hdark]
  by_cases hrow : r = 6
  · rw [if_pos (by omega), if_pos hrow]
  rw [if_neg (by omega), if_neg hrow]
  by_cases hcol : c = 6
  · rw [if_pos (by omega), if_pos hcol]
  · rw [if_neg (by omega), if_neg (by omega), if_neg hcol, allocated]

/-- Every cell of the grid `STR` makes is what R142 to R145 say of its coordinates. -/
theorem cell_structuralGrid (r c : Fin 33) : structuralGrid.cell r c = structuralModule r.val c.val := by
  have hr := Nat.le_of_lt_succ r.isLt
  have hc := Nat.le_of_lt_succ c.isLt
  rw [structuralGrid, cell_ofCells]
  by_cases h : InFinder r.val c.val
  · exact stamped_eq_of_inFinder hr hc h
  · exact stamped_eq_of_not_inFinder hr hc h

/-- The eligible cells (R161). -/
theorem eligible_iff (r c : Nat) : eligible r c = true ↔
    ¬ (r ≤ 8 ∧ c ≤ 8) ∧ ¬ (r ≤ 8 ∧ 24 ≤ c) ∧ ¬ (24 ≤ r ∧ c ≤ 8) ∧ r ≠ 6 ∧ c ≠ 6 := by
  simp only [eligible, Config.size, Bool.and_eq_true, Bool.not_eq_true', Bool.and_eq_false_iff,
    decide_eq_false_iff_not, bne_iff_ne]
  omega

/-- No structural cell is eligible for masking (R161). -/
theorem eligible_false_of_structural {r c : Nat} (h : structuralModule r c ≠ .unset) :
    eligible r c = false := by
  rw [Bool.eq_false_iff, Ne, eligible_iff]
  intro hout
  apply h
  unfold structuralModule
  rw [if_neg (by omega), if_neg (by omega), if_neg (by omega), if_neg (by omega), if_neg (by omega),
    if_neg (by omega), if_neg (by omega), if_neg (by omega)]

/-! ### Penalty scores -/

/-- The bound of R168: every one of 66 lines of 33 modules adds at most 31. -/
theorem penalty_le (g : Grid) : penalty g ≤ 2046 := by
  have hlines : ∀ line : Fin 33 → List Module, (∀ i, (line i).length = 33) →
      ((List.finRange 33).map fun i => linePenalty (line i)).sum ≤ 33 * 31 := by
    intro line hlen
    have hle : ∀ x ∈ (List.finRange 33).map fun i => linePenalty (line i), x ≤ 31 := by
      simp only [List.mem_map, forall_exists_index, and_imp]
      rintro x i - rfl
      exact (linePenalty_le _).trans (by rw [hlen])
    simpa using List.sum_le_card_nsmul _ 31 hle
  have hrows := hlines g.row (by simp [Grid.row])
  have hcols := hlines g.col (by simp [Grid.col])
  unfold penalty
  omega

/-- A `PEN` register holds its score exactly (R168). -/
theorem scores_toNat (flips : Fin 8 → Nat → Nat → Bool) (g : Grid) (k : Fin 8) :
    (scores flips g)[k].toNat = penalty (applyMask (flips k) g) := by
  have hle := penalty_le (applyMask (flips k) g)
  simp only [scores, Fin.getElem_fin, Vector.getElem_ofFn, Fin.eta, BitVec.toNat_ofNat]
  exact Nat.mod_eq_of_lt (by omega)

/-- `best` is the first candidate with the least score among those below `n`. -/
def FirstMin (pen : Vector (BitVec 16) 8) (n : Nat) (best : Fin 8) : Prop :=
  best.val < n ∧ (∀ k : Fin 8, k.val < n → pen[best] ≤ pen[k]) ∧ ∀ k : Fin 8, k < best → pen[best] < pen[k]

theorem firstMin_zero (pen : Vector (BitVec 16) 8) : FirstMin pen 1 0 := by
  refine ⟨Nat.one_pos, fun k hk => ?_, fun k hk => absurd hk (Fin.not_lt_zero k)⟩
  obtain rfl : k = 0 := Fin.ext (Nat.lt_one_iff.1 hk)
  exact BitVec.le_refl _

theorem firstMin_succ {pen : Vector (BitVec 16) 8} {best k : Fin 8} (h : FirstMin pen k.val best) :
    FirstMin pen (k.val + 1) (if pen[k] < pen[best] then k else best) := by
  obtain ⟨hbelow, hle, hlt⟩ := h
  exact better_firstMin pen k.val k.isLt best hbelow hle hlt

/-- The selection loop ends with the first least of the eight scores (R165). -/
theorem bestMask_firstMin (pen : Vector (BitVec 16) 8) : FirstMin pen 8 (bestMask pen) :=
  firstMin_succ (k := 7) <| firstMin_succ (k := 6) <| firstMin_succ (k := 5) <| firstMin_succ (k := 4) <|
    firstMin_succ (k := 3) <| firstMin_succ (k := 2) <| firstMin_succ (k := 1) <| firstMin_zero pen

theorem bestMask_le (pen : Vector (BitVec 16) 8) (k : Fin 8) : pen[bestMask pen] ≤ pen[k] := by
  obtain ⟨-, hle, -⟩ := bestMask_firstMin pen
  exact hle k k.isLt

theorem bestMask_lt (pen : Vector (BitVec 16) 8) (k : Fin 8) (h : k < bestMask pen) :
    pen[bestMask pen] < pen[k] := by
  obtain ⟨-, -, hlt⟩ := bestMask_firstMin pen
  exact hlt k h

/-! ### The finished symbol -/

/-- The placed grid has no Unset cell (R150). -/
theorem placedGrid_binary (b : BitSeq) : (placedGrid b).binary = true := zeroFill_binary _

/-- Placement keeps every structural cell (R149). -/
theorem placedGrid_structural (b : BitSeq) {r c : Fin 33} (h : structuralModule r.val c.val ≠ .unset) :
    (placedGrid b).cell r c = structuralModule r.val c.val := by
  rw [← cell_structuralGrid] at h ⊢
  exact placedCell_structural scanOrder b structuralGrid r c h

theorem fullSequence_length_le {s : State} {b : BitSeq} (h : FullSequence s b) : b.length ≤ 720 := by
  obtain ⟨d, hd, rfl⟩ := h
  rw [appendRedundancy_length_of_cap (encodeText_length hd)]
  exact cap_add_nred_le s.level

/-- The bound of R38(b), stage by stage: nothing, a data sequence, a full sequence. -/
theorem bits_length_le {s : State} (h : Consistent s) : s.bits.length ≤ 720 := by
  cases hs : s.stage with
  | idle =>
    obtain ⟨-, hbits, -⟩ := (consistent_idle hs).1 h
    simp [hbits]
  | classified =>
    obtain ⟨-, hbits, -⟩ := (consistent_classified hs).1 h
    simp [hbits]
  | encoded =>
    obtain ⟨-, hbits, -⟩ := (consistent_encoded hs).1 h
    exact (encodeText_length hbits).trans_le ((cap_le s.level).trans (by decide))
  | redundant =>
    obtain ⟨-, hbits, -⟩ := (consistent_redundant hs).1 h
    exact fullSequence_length_le hbits
  | structured =>
    obtain ⟨-, hbits, -⟩ := (consistent_structured hs).1 h
    exact fullSequence_length_le hbits
  | placed =>
    obtain ⟨-, hbits, -⟩ := (consistent_placed hs).1 h
    exact fullSequence_length_le hbits
  | done =>
    obtain ⟨-, hbits, -⟩ := (consistent_done hs).1 h
    exact fullSequence_length_le hbits

/-- From `STAGE = 5` on the grid is the placed grid, at `STAGE = 6` under a mask. -/
theorem grid_of_consistent {s : State} (h : Consistent s) (hs : s.stage = .placed ∨ s.stage = .done) :
    s.grid = placedGrid s.bits ∨ ∃ flips, s.grid = applyMask flips (placedGrid s.bits) := by
  rcases hs with hs | hs
  · obtain ⟨-, -, hgrid, -⟩ := (consistent_placed hs).1 h
    exact .inl hgrid
  · obtain ⟨-, -, hgrid, -⟩ := (consistent_done hs).1 h
    exact .inr ⟨_, hgrid⟩

/-- Settles O50: masking keeps a grid binary and leaves structural cells, scores are exact, and the same mask
twice gives back the grid. -/
theorem finishedSymbolIsSound : Obligations.FinishedSymbolIsSound := by
  intro s h
  refine ⟨bits_length_le h, fun hs => ?_, fun hs => ?_⟩
  · rcases grid_of_consistent h hs with hgrid | ⟨flips, hgrid⟩ <;> rw [hgrid]
    · exact ⟨placedGrid_binary s.bits, fun r c => placedGrid_structural s.bits⟩
    · refine ⟨applyMask_binary (placedGrid_binary s.bits), fun r c hrc => ?_⟩
      rw [applyMask_not_eligible flips _ r c (eligible_false_of_structural hrc), placedGrid_structural _ hrc]
  · obtain ⟨-, -, hgrid, hpen, hsel⟩ := (consistent_done hs).1 h
    refine ⟨bestMask s.pen, ?_, bestMask_le s.pen, bestMask_lt s.pen, ?_, ?_⟩
    · rw [hsel, BitVec.toNat_ofNat]
      exact Nat.mod_eq_of_lt (bestMask s.pen).isLt
    · rw [hgrid, ← scores_toNat, ← hpen]
    · rw [hgrid, applyMask_applyMask]

end Sys2Proof.Machine
end

section
/-! The family of `20_memory.md`: codewords (R55), the address map read and written (R51 to R53), reads without side
effect (R54), and the codeword window (R56). -/

namespace Sys2Proof.Machine

open Sys2Proof.Claims

/-! ### Codewords -/

/-- The codeword holds its group's value exactly (R55). -/
theorem codeword_toNat (s : BitSeq) (j : Nat) : (codeword s j).toNat = groupValue s j 8 := by
  rw [codeword, BitVec.toNat_ofNat]
  exact Nat.mod_eq_of_lt (groupValue_lt s j 8 (Nat.le_refl 8))

/-- Settles O36: a codeword is its group's value, and re-expansion inverts grouping both ways. -/
theorem codewordExpansion : Obligations.CodewordExpansion := by
  refine ⟨codeword_toNat, bitsOf_codeword, fun bs j hj => ?_⟩
  rw [codeword_bytesToBits bs j hj, List.getD_eq_getElem bs 0 hj]

/-! ### The address map, both ways -/

theorem regAddr_pen_toNat (k : Fin 8) : (regAddr (.pen k)).toNat = 0x010 + k.val :=
  Nat.mod_eq_of_lt (by omega)

theorem regAddr_text_toNat (i : Fin 255) : (regAddr (.text i)).toNat = 0x100 + i.val :=
  Nat.mod_eq_of_lt (by omega)

theorem regAddr_cw_toNat (j : Fin 90) : (regAddr (.cw j)).toNat = 0x200 + j.val :=
  Nat.mod_eq_of_lt (by omega)

theorem regAddr_grid_toNat (r c : Fin 33) : (regAddr (.grid r c)).toNat = 0x400 + 33 * r.val + c.val :=
  Nat.mod_eq_of_lt (by omega)

/-- The register at a register's address is that register (R51). -/
theorem regAt_regAddr (r : Reg) : regAt (regAddr r) = some r := by
  cases r
  case pen k => exact regAt_pen k (regAddr_pen_toNat k)
  case text i => exact regAt_text i (regAddr_text_toNat i)
  case cw j => exact regAt_cw j (regAddr_cw_toNat j)
  case grid r c => exact regAt_grid r c (regAddr_grid_toNat r c)
  all_goals rfl

theorem regAddr_of_lowReg {n : Nat} {r : Reg} (h : lowReg n = some r) : (regAddr r).toNat = n := by
  unfold lowReg at h
  split at h <;> cases h <;> rfl

/-- The low registers end at 0x00A (R51). -/
theorem lowReg_of_ge {n : Nat} (h : 11 ≤ n) : lowReg n = none := by
  obtain ⟨k, rfl⟩ := Nat.exists_eq_add_of_le' h
  rfl

/-- A register stands at no address but its own (R51). -/
theorem eq_regAddr_of_regAt {a : Addr} {r : Reg} (h : regAt a = some r) : a = regAddr r := by
  apply BitVec.eq_of_toNat_eq
  rcases regAt_cases a with ⟨-, hr⟩ | ⟨k, ha, hr⟩ | ⟨i, ha, hr⟩ | ⟨j, ha, hr⟩ | ⟨r, c, ha, hr⟩ | ⟨-, hr⟩ <;>
    rw [hr] at h
  · exact (regAddr_of_lowReg h).symm
  · cases h; exact ha.trans (regAddr_pen_toNat k).symm
  · cases h; exact ha.trans (regAddr_text_toNat i).symm
  · cases h; exact ha.trans (regAddr_cw_toNat j).symm
  · cases h; exact ha.trans (regAddr_grid_toNat r c).symm
  · cases h

/-- No register stands at a reserved address (R51). -/
theorem regAt_of_reservedAddr {a : Addr} (h : ReservedAddr a) : regAt a = none := by
  unfold ReservedAddr at h
  rcases regAt_cases a with ⟨-, hr⟩ | ⟨k, ha, -⟩ | ⟨i, ha, -⟩ | ⟨j, ha, -⟩ | ⟨r, c, ha, -⟩ | ⟨-, hr⟩
  · rw [hr]
    exact lowReg_of_ge (by omega)
  · omega
  · omega
  · omega
  · omega
  · exact hr

theorem memRead_of_reservedAddr {a : Addr} (h : ReservedAddr a) (s : State) : memRead a s = 0 := by
  simp only [memRead, regAt_of_reservedAddr h]

/-- A read at a register's address gives the register (R16). -/
theorem memRead_regAddr (r : Reg) (s : State) : memRead (regAddr r) s = readReg s r := by
  simp only [memRead, regAt_regAddr]

/-! ### Host writes elsewhere than to `CMD` -/

/-- The operand registers, "RW*" in R51. -/
def OperandReg : Reg → Prop
  | .level => True
  | .modeReq => True
  | .tlen => True
  | .text _ => True
  | _ => False

/-- A write to a read-only register changes nothing (R53). -/
theorem writeReg_of_not_operandReg {r : Reg} (h : ¬ OperandReg r) (v : Word) (s : State) :
    writeReg r v s = s := by
  unfold writeReg
  split
  · cases r
    case level => exact absurd trivial h
    case modeReq => exact absurd trivial h
    case tlen => exact absurd trivial h
    case text i => exact absurd trivial h
    all_goals rfl
  · rfl

theorem operandAddr_regAddr {r : Reg} (h : OperandReg r) : OperandAddr (regAddr r) := by
  unfold OperandAddr
  cases r
  case level => exact .inl rfl
  case modeReq => exact .inr (.inl rfl)
  case tlen => exact .inr (.inr (.inl rfl))
  case text i =>
    have ha := regAddr_text_toNat i
    exact .inr (.inr (.inr ⟨by omega, by omega⟩))
  all_goals exact absurd h id

/-- A write elsewhere than to `CMD` changes nothing unless it meets an operand register with the lock open
(R40, R53). -/
theorem memWrite_unchanged {a : Addr} (ha : a ≠ 0) {s : State}
    (h : ¬ (OperandAddr a ∧ s.stage = .idle ∧ s.err = .noError)) (v : Word) :
    memWrite a v s = .next s := by
  cases hopen : inputsOpen s with
  | false => exact memWrite_locked hopen ha v
  | true =>
    rcases memWrite_of_ne ha v s with ⟨r, hr, -, hw⟩ | ⟨-, hw⟩ <;> rw [hw]
    have hreg : ¬ OperandReg r := fun hop =>
      h ⟨eq_regAddr_of_regAt hr ▸ operandAddr_regAddr hop, (inputsOpen_iff s).1 hopen⟩
    rw [writeReg_of_not_operandReg hreg]

/-- A write elsewhere than to `CMD` raises nothing (R53). -/
theorem memWrite_err {a : Addr} (ha : a ≠ 0) (v : Word) (s : State) :
    ∃ t, memWrite a v s = .next t ∧ t.err = s.err := by
  rcases memWrite_of_ne ha v s with ⟨r, -, -, hw⟩ | ⟨-, hw⟩
  · exact ⟨_, hw, by rw [writeReg_frame]⟩
  · exact ⟨s, hw, rfl⟩

/-- Settles O39: no register stands at a reserved address, and a write stores in an open operand register or
nowhere. -/
theorem reservedAndReadOnlyAddresses : Obligations.ReservedAndReadOnlyAddresses := by
  intro s a
  refine ⟨fun h => memRead_of_reservedAddr h s, fun rest v hhost ha => ?_⟩
  rw [step_write hhost]
  exact ⟨fun h => memWrite_unchanged (s := { s with host := rest }) ha h v, memWrite_err ha v _⟩

/-! ### Host reads -/

/-- Settles O40: a read only extends the host's list, which no read sees, and a write elsewhere than to `CMD` or
to an open operand register changes nothing. -/
theorem readsHaveNoSideEffect : Obligations.ReadsHaveNoSideEffect := by
  refine ⟨fun s rest a hhost => ?_, fun s t e rest hhost hreset hstep hchanged => ?_⟩
  · have hread : memRead a { s with host := rest } = memRead a s := memRead_frame a s rest s.reads s.resets
    refine ⟨_, step_read hhost, ?_, fun b => memRead_frame b s rest _ s.resets⟩
    rw [hostRead, hread]
  · cases e with
    | read a =>
      rw [step_read hhost] at hstep
      exact absurd (next_inj hstep ▸ rfl) hchanged
    | reset => exact absurd rfl hreset
    | write a v =>
      by_cases ha : a = 0
      · exact .inl ⟨v, ha ▸ rfl⟩
      · refine .inr (by_contra fun hno => hchanged ?_)
        have hlocked : ¬ (OperandAddr a ∧ s.stage = .idle ∧ s.err = .noError) :=
          fun ⟨hop, hstage, herr⟩ => hno ⟨hstage, herr, a, v, rfl, hop⟩
        rw [step_write hhost, memWrite_unchanged (s := { s with host := rest }) ha hlocked] at hstep
        exact next_inj hstep ▸ rfl

/-! ### What the registers read as -/

theorem stageCode_toNat (st : Stage) : (stageCode st).toNat = stageNumber st := by cases st <;> rfl

theorem errCode_toNat (e : ErrCode) : (errCode e).toNat = errorNumber e := by cases e <;> rfl

theorem stageNumber_eq_six_iff (st : Stage) : stageNumber st = 6 ↔ st = .done := by cases st <;> decide

theorem errorNumber_eq_zero_iff (e : ErrCode) : errorNumber e = 0 ↔ e = .noError := by cases e <;> decide

/-- The layout of `STATUS`: `STAGE` in bits 2:0, then `ERRF`, then `DONE` (R32). -/
theorem statusWord_toNat (s : State) : (statusWord s).toNat =
    stageNumber s.stage + (if errorNumber s.err = 0 then 0 else 8)
      + (if stageNumber s.stage = 6 then 16 else 0) := by
  have hlayout : ∀ (done err : Bool) (code : BitVec 3),
      ((0 : BitVec 11) ++ BitVec.ofBool done ++ BitVec.ofBool err ++ code).toNat =
        code.toNat + (if err then 8 else 0) + (if done then 16 else 0) := by decide
  rw [statusWord, hlayout, stageCode_toNat]
  simp only [errorFlag, doneFlag, stageNumber_eq_six_iff, errorNumber_eq_zero_iff, bne_iff_ne, beq_iff_eq,
    ne_eq, ite_not]

/-- How many bits of the sequence `CW[j]` shows (R56). -/
def windowCount (b : BitSeq) (j : Nat) : Nat :=
  if j < b.length / 8 then 8 else if j = b.length / 8 then b.length % 8 else 0

theorem windowCount_le (b : BitSeq) (j : Nat) : windowCount b j ≤ 8 := by
  unfold windowCount
  split_ifs <;> omega

theorem windowNumber_eq_groupValue (b : BitSeq) (j : Nat) :
    windowNumber b j = groupValue b j (windowCount b j) := rfl

/-- Whole groups, the high bits of a partial last one, and 0 beyond are one group value (R56). -/
theorem cwWindow_eq_groupValue (b : BitSeq) (j : Nat) :
    cwWindow b j = BitVec.ofNat 8 (groupValue b j (windowCount b j)) := by
  unfold cwWindow windowCount
  by_cases hwhole : j < b.length / 8
  · rw [if_pos hwhole, if_pos hwhole, codeword]
  rw [if_neg hwhole, if_neg hwhole]
  by_cases hlast : j = b.length / 8
  · rw [if_pos hlast]
    by_cases hpart : 0 < b.length % 8
    · rw [if_pos ⟨hlast, hpart⟩]
    · rw [if_neg fun h => hpart h.2, Nat.eq_zero_of_not_pos hpart]
      rfl
  · rw [if_neg hlast, if_neg fun h => hlast h.1]
    rfl

theorem cwWindow_toNat (b : BitSeq) (j : Nat) : (cwWindow b j).toNat = windowNumber b j := by
  rw [cwWindow_eq_groupValue, windowNumber_eq_groupValue, BitVec.toNat_ofNat]
  exact Nat.mod_eq_of_lt (groupValue_lt b j _ (windowCount_le b j))

theorem memRead_cw {j : Nat} (hj : j < 90) (s : State) :
    memRead (BitVec.ofNat 12 (0x200 + j)) s = (cwWindow s.bits j).setWidth 16 :=
  memRead_regAddr (.cw ⟨j, hj⟩) s

theorem memRead_cw_toNat {j : Nat} (hj : j < 90) (s : State) :
    (memRead (BitVec.ofNat 12 (0x200 + j)) s).toNat = windowNumber s.bits j := by
  rw [memRead_cw hj, BitVec.toNat_setWidth_of_le (by decide), cwWindow_toNat]

/-- A zero-extended register reads as its value (R52). -/
theorem memRead_zeroExtended {r : Reg} {s : State} {n : Nat} {x : BitVec n} (hn : n ≤ 16)
    (h : readReg s r = x.setWidth 16) : (memRead (regAddr r) s).toNat = x.toNat := by
  rw [memRead_regAddr, h, BitVec.toNat_setWidth_of_le hn]

/-- `BLEN` reads exactly within its bound (R26). -/
theorem memRead_blen_toNat {s : State} (h : s.bits.length ≤ 720) :
    (memRead (regAddr .blen) s).toNat = s.bits.length := by
  rw [memRead_regAddr, readReg, blen, BitVec.toNat_ofNat]
  exact Nat.mod_eq_of_lt (by omega)

theorem memRead_grid (r c : Fin 33) (s : State) :
    memRead (BitVec.ofNat 12 (0x400 + 33 * r.val + c.val)) s = (moduleCode (s.grid.cell r c)).setWidth 16 :=
  memRead_regAddr (.grid r c) s

/-- Settles O41: each address is its register's, and each register reads zero-extended. -/
theorem registerReads : Obligations.RegisterReads := by
  intro s
  have hread := fun r => memRead_regAddr r s
  refine ⟨hread .cmd, ?_, ?_, ?_, ?_, ?_, ?_, hread .size, hread .version, memRead_blen_toNat, ?_,
    fun k => hread (.pen k), fun i => ?_, fun j => memRead_cw_toNat j.isLt s, fun r c => ?_,
    fun a h => memRead_of_reservedAddr h s⟩
  · exact (congrArg _ (hread .status)).trans (statusWord_toNat s)
  · exact (memRead_zeroExtended (r := .err) (by decide) rfl).trans (errCode_toNat s.err)
  · exact memRead_zeroExtended (r := .level) (by decide) rfl
  · exact memRead_zeroExtended (r := .modeReq) (by decide) rfl
  · exact memRead_zeroExtended (r := .tlen) (by decide) rfl
  · exact memRead_zeroExtended (r := .mode) (by decide) rfl
  · exact memRead_zeroExtended (r := .maskSel) (by decide) rfl
  · exact memRead_zeroExtended (r := .text i) (by decide) rfl
  · rw [memRead_grid]
    cases s.grid.cell r c <;> rfl

/-! ### The codeword window after `RED` -/

theorem cwWindow_of_lt {b : BitSeq} {j : Nat} (h : j < b.length / 8) : cwWindow b j = codeword b j := if_pos h

/-- After `RED` the window shows the data codewords and then the redundancy codewords (R56, R133). -/
theorem cwWindow_appendRedundancy {nr j : Nat} {b : BitSeq} (h : j < b.length / 8 + nr) :
    cwWindow (appendRedundancy nr b) j =
      (dataCodewords b ++ redundancy (dataCodewords b) nr)[j]'(by simpa [dataCodewords] using h) := by
  rw [cwWindow_of_lt (by rw [appendRedundancy_length]; omega)]
  exact codeword_bytesToBits _ j _

theorem cwWindow_appendRedundancy_data {nr j : Nat} {b : BitSeq} (h : j < b.length / 8) :
    cwWindow (appendRedundancy nr b) j = cwWindow b j := by
  have hj : j < (dataCodewords b).length := by simpa [dataCodewords] using h
  rw [cwWindow_appendRedundancy (by omega), List.getElem_append_left hj, cwWindow_of_lt h]
  simp [dataCodewords]

theorem cwWindow_appendRedundancy_redundancy {nr j : Nat} {b : BitSeq} (h : j < nr) :
    cwWindow (appendRedundancy nr b) (b.length / 8 + j) = (redundancy (dataCodewords b) nr).getD j 0 := by
  have hlen : (dataCodewords b).length = b.length / 8 := by simp [dataCodewords]
  rw [cwWindow_appendRedundancy (by omega), List.getElem_append_right (by omega),
    List.getD_eq_getElem _ _ (by simpa using h)]
  simp only [hlen, Nat.add_sub_cancel_left]

/-- `BITS` in a consistent state: nothing, a data sequence, or a full sequence (R30). -/
theorem bits_cases_of_consistent {s : State} (h : Consistent s) :
    s.bits = [] ∨ EncodesTo s s.bits ∨ FullSequence s s.bits := by
  obtain ⟨-, hbits, -, -⟩ := h
  unfold BitsConsistent at hbits
  cases hs : s.stage <;> rw [hs] at hbits
  case idle => exact .inl hbits
  case classified => exact .inl hbits
  case encoded => exact .inr (.inl hbits)
  all_goals exact .inr (.inr hbits)

/-- `BLEN` counts whole codewords in every consistent state (R56). -/
theorem bits_length_mod_eight {s : State} (h : Consistent s) : s.bits.length % 8 = 0 := by
  rcases bits_cases_of_consistent h with hbits | hbits | ⟨d, -, hbits⟩
  · rw [hbits]; rfl
  · rw [encodeText_length hbits]; exact cap_mod_eight s.level
  · rw [hbits, appendRedundancy_length]; exact Nat.mul_mod_right 8 _

/-- Settles O42: the window's value, the codewords `RED` leaves in place and appends, and whole groups at every
stage. -/
theorem codewordWindow : Obligations.CodewordWindow := by
  refine ⟨fun s j => memRead_cw_toNat j.isLt s, fun s t herr hstage hlen hred => ?_,
    fun s => bits_length_mod_eight⟩
  rw [exec_red, accept_ready herr hstage] at hred
  obtain rfl := next_inj hred
  have hfits := cap_add_nred_le s.level
  rw [← hlen] at hfits ⊢
  refine ⟨fun j hj => ?_, fun j hj => ?_⟩
  · rw [memRead_cw (by omega), memRead_cw (by omega), redBody_bits, cwWindow_appendRedundancy_data hj]
  · rw [Nat.add_assoc, memRead_cw (by omega), BitVec.toNat_setWidth_of_le (by decide), redBody_bits,
      cwWindow_appendRedundancy_redundancy hj, dataCodewords]

end Sys2Proof.Machine
end

section
/-! The family of `30_encoding.md`: command words (R70 to R72), the listing of the alphanumeric symbols (R77, R78) and
the `TEXT` line of a host program (R83). -/

namespace Sys2Proof.Machine

open Sys2Proof.Claims

/-! ### Command words -/

/-- Decoding inverts encoding (R70, R71). -/
theorem decode_encode (i : Instr) : decode (encode i) = .ok i := by
  cases i <;> rfl

theorem rsv_toNat (w : Word) : (CommandWord.rsv w).toNat = w.toNat / 16 := by
  rw [CommandWord.rsv, BitVec.extractLsb'_toNat, Nat.shiftRight_eq_div_pow]
  exact Nat.mod_eq_of_lt (by omega)

theorem op_toNat (w : Word) : (CommandWord.op w).toNat = w.toNat % 16 := by
  rw [CommandWord.op, BitVec.extractLsb'_toNat, Nat.shiftRight_zero]

theorem rsv_eq_zero_iff (w : Word) : CommandWord.rsv w = 0 ↔ w.toNat / 16 = 0 := by
  rw [← rsv_toNat, ← BitVec.toNat_inj]
  rfl

/-- The operation codes 0x9 to 0xF are reserved (R71). -/
theorem decodeOp_error_iff (op : BitVec 4) : (∃ r, decodeOp op = .error r) ↔ 9 ≤ op.toNat := by
  unfold decodeOp
  split
  case h_10 =>
    simp only [imp_false] at *
    exact iff_of_true ⟨_, rfl⟩ (by omega)
  all_goals exact iff_of_false (by rintro ⟨r, h⟩; cases h) (by omega)

/-- The words that encode no command are those of R72. -/
theorem decode_error_iff (w : Word) : (∃ r, decode w = .error r) ↔ IllegalWord w := by
  unfold decode IllegalWord
  rw [← op_toNat, ← decodeOp_error_iff, Ne, ← rsv_eq_zero_iff]
  by_cases hrsv : CommandWord.rsv w = 0
  · simp only [hrsv, if_true, not_true, false_or]
  · exact iff_of_true ⟨_, if_neg hrsv⟩ (.inl hrsv)

/-- Settles O2: decoding inverts encoding both ways, and the error is that of one of the two fields. -/
theorem decodeEncodeAgree : Obligations.DecodeEncodeAgree :=
  ⟨decode_encode, fun _ _ h => (eq_encode_of_decode h).symm, decode_error_iff⟩

/-- Settles O1: each of the nine words is its command's encoding. -/
theorem commandWordsDecode : Obligations.CommandWordsDecode :=
  ⟨decode_encode .nop, decode_encode .cls, decode_encode .enc, decode_encode .red, decode_encode .str,
    decode_encode .plc, decode_encode .msk, decode_encode .gen, decode_encode .clr⟩

/-! ### The listing of the alphanumeric symbols -/

theorem mem_listing_iff (n : Nat) : n ∈ listing ↔ (0x30 ≤ n ∧ n ≤ 0x39) ∨ (0x41 ≤ n ∧ n ≤ 0x5A)
    ∨ n ∈ [0x20, 0x24, 0x25, 0x2A, 0x2B, 0x2D, 0x2E, 0x2F, 0x3A] := by
  simp only [listing, ← List.range'_eq_map_range, List.mem_append, List.mem_range'_1, or_assoc, Nat.lt_succ_iff]

/-- The codes of the listing have their positions as indices (R77). -/
theorem alnumIndex_listing : ∀ k : Fin 45, alnumIndex (BitVec.ofNat 8 (listing.getD k 0)) = some k.val := by decide

theorem alnumIndex_of_mem {c : Byte} (h : c.toNat ∈ listing) :
    alnumIndex c = some (listing.idxOf c.toNat) := by
  have hk := List.idxOf_lt_length_of_mem h
  have hindex := alnumIndex_listing ⟨listing.idxOf c.toNat, hk⟩
  rwa [List.getD_eq_getElem _ _ hk, List.getElem_idxOf hk, BitVec.ofNat_toNat, BitVec.setWidth_eq] at hindex

theorem alnumIndex_of_not_mem {c : Byte} (h : c.toNat ∉ listing) : alnumIndex c = none := by
  rw [mem_listing_iff] at h
  simp only [List.mem_cons, List.not_mem_nil, or_false, not_or] at h
  obtain ⟨hdigit, hletter, hother⟩ := h
  simp only [alnumIndex, if_neg hdigit, if_neg hletter, hother, if_false]

/-- The alphanumeric symbols are those of the listing (R101). -/
theorem isAlnum_iff_mem_listing (c : Byte) : isAlnum c = true ↔ c.toNat ∈ listing := by
  rw [isAlnum]
  by_cases h : c.toNat ∈ listing
  · simp [alnumIndex_of_mem h, h]
  · simp [alnumIndex_of_not_mem h, h]

/-- A digit's index is its digit value (R101). -/
theorem alnumIndex_digit {c : Byte} (h : DigitCode c) : alnumIndex c = digitValue c := by
  rw [digitValue_eq c (decide_eq_true h)]
  exact if_pos h

/-- Settles O15: the listed codes by their positions, every other code by falling through, the digits by their
range. -/
theorem alnumIndexIsListingPosition : Obligations.AlnumIndexIsListingPosition := by
  refine ⟨rfl, fun c => ⟨?_, fun hdigit => ?_⟩⟩
  · split_ifs with hmem
    · exact alnumIndex_of_mem hmem
    · exact alnumIndex_of_not_mem hmem
  · exact ⟨(isAlnum_iff_mem_listing c).2 ((mem_listing_iff _).2 (.inl hdigit)), alnumIndex_digit hdigit⟩

/-! ### Runs -/

theorem run_succ {s t : State} (h : step s = .next t) (n : Nat) : core.run (n + 1) s = core.run n t := by
  simp only [Host.Core.run, show core.step s = .next t from h]

/-! ### The `TEXT` line -/

/-- The text with the characters stored in the cells from index `i` on. -/
def storeChars (v : Vector Byte 255) : Nat → List Byte → Vector Byte 255
  | _, [] => v
  | i, c :: cs => storeChars (v.setIfInBounds i c) (i + 1) cs

/-- What a cell holds after the characters are stored: the character that falls on it, if one does. -/
theorem getElem_storeChars (cs : List Byte) (v : Vector Byte 255) (i j : Nat) (hj : j < 255) :
    (storeChars v i cs)[j] = if i ≤ j then cs.getD (j - i) v[j] else v[j] := by
  induction cs generalizing v i with
  | nil => simp [storeChars]
  | cons c cs ih =>
    rw [storeChars, ih, Vector.getElem_setIfInBounds]
    rcases Nat.lt_trichotomy i j with h | rfl | h
    · have hsub : j - i = (j - (i + 1)) + 1 := by omega
      rw [if_pos (by omega), if_neg (by omega), if_pos (by omega), hsub, List.getD_cons_succ]
    · simp
    · rw [if_neg (by omega), if_neg (by omega), if_neg (by omega)]

/-- Inside its bounds the guarded write is the plain one. -/
theorem set_eq_setIfInBounds {α : Type} {n : Nat} (v : Vector α n) (i : Nat) (c : α) (h : i < n) :
    v.set i c h = v.setIfInBounds i c := by
  ext j
  rw [Vector.getElem_set, Vector.getElem_setIfInBounds]

/-- A `TEXT` write with the lock open stores its character (R40, R58). -/
theorem step_textWrite {s : State} {i : Nat} {c : Byte} {rest : List HostEvent} (hopen : inputsOpen s = true)
    (hi : i < 255) (hhost : s.host = .write (BitVec.ofNat 12 (0x100 + i)) (c.setWidth 16) :: rest) :
    step s = .next { s with host := rest, text := s.text.setIfInBounds i c } := by
  have haddr : (BitVec.ofNat 12 (0x100 + i)).toNat = 0x100 + i := regAddr_text_toNat ⟨i, hi⟩
  obtain ⟨-, -, -, hwrite⟩ := writeReg_open (s := { s with host := rest }) hopen (c.setWidth 16)
  rw [step_write hhost, memWrite_text ⟨i, hi⟩ haddr, hwrite, BitVec.setWidth_setWidth_of_le _ (by decide),
    BitVec.setWidth_eq, set_eq_setIfInBounds]

/-- The `TEXT` writes of characters that fit store them one after the other (R58). -/
theorem run_textWrites (cs : List Byte) (n : Nat) {i : Nat} {s : State} {rest : List HostEvent}
    (hopen : inputsOpen s = true) (hfit : i + cs.length ≤ 255) (hhost : s.host = textWrites i cs ++ rest) :
    core.run (cs.length + n) s = core.run n { s with host := rest, text := storeChars s.text i cs } := by
  induction cs generalizing i s with
  | nil =>
    rw [List.length_nil, Nat.zero_add, storeChars, ← show s.host = rest from hhost]
  | cons c cs ih =>
    rw [List.length_cons] at hfit ⊢
    rw [Nat.add_right_comm, run_succ (step_textWrite hopen (by omega) hhost)]
    refine ih ?_ (by omega) rfl
    exact hopen

/-- A `TLEN` write with the lock open stores the low bits (R40, R52). -/
theorem step_tlenWrite {s : State} {v : Word} {rest : List HostEvent} (hopen : inputsOpen s = true)
    (hhost : s.host = .write (regAddr .tlen) v :: rest) :
    step s = .next { s with host := rest, tlen := v.setWidth 8 } := by
  obtain ⟨-, -, htlen, -⟩ := writeReg_open (s := { s with host := rest }) hopen v
  rw [step_write hhost, ← htlen]
  rfl

theorem storedLength_toNat {n : Nat} (h : n ≤ 255) : ((BitVec.ofNat 16 n).setWidth 8).toNat = n := by
  rw [BitVec.toNat_setWidth, BitVec.toNat_ofNat]
  omega

/-- The text is the stored characters when `TLEN` is their number (R21). -/
theorem chars_of_storeChars {s : State} {v : Vector Byte 255} {cs : List Byte}
    (htext : s.text = storeChars v 0 cs) (htlen : s.tlen.toNat = cs.length) : chars s = cs := by
  apply List.ext_getElem
  · rw [chars_length, htlen]
  · intro i hi hcs
    simp only [chars, htext, List.getElem_take, Vector.getElem_toList]
    rw [getElem_storeChars, if_pos i.zero_le, Nat.sub_zero, List.getD_eq_getElem _ _ hcs]

/-- Settles O43: the `TEXT` writes store the characters from cell 0 on, and the last write stores their number. -/
theorem textLineLoadsText : Obligations.TextLineLoadsText := by
  intro s cs hstage herr hfit hhost
  have hopen : inputsOpen s = true := (inputsOpen_iff s).2 ⟨hstage, herr⟩
  have hlen := storedLength_toNat hfit
  refine ⟨{ s with host := [], text := storeChars s.text 0 cs, tlen := (BitVec.ofNat 16 cs.length).setWidth 8 },
    ?_, chars_of_storeChars rfl hlen, hlen, rfl, fun i hi => ?_⟩
  · rw [run_textWrites cs 1 hopen (by omega) hhost]
    refine run_succ (step_tlenWrite ?_ rfl) 0
    exact hopen
  · change (storeChars s.text 0 cs)[i.val] = s.text[i.val]
    rw [getElem_storeChars, if_pos i.val.zero_le, Nat.sub_zero, List.getD_eq_default _ _ hi]

end Sys2Proof.Machine
end

section
/-! The family of `40_classify_encode.md`: classification and `CLS` (R100 to R103), the payload and the padded sequence
of `ENC` in closed form (R107 to R116), its errors (R105, R106, R112) and the longest texts (R117). -/

namespace Sys2Proof.Machine

open Sys2Proof.Claims

/-! ### Classification -/

theorem isDigit_iff (c : Byte) : isDigit c = true ↔ DigitCode c := decide_eq_true_iff

theorem all_isDigit_iff (t : List Byte) : t.all isDigit = true ↔ Covers .numeric t := by
  simp only [List.all_eq_true, isDigit_iff, Covers]

theorem all_isAlnum_iff (t : List Byte) : t.all isAlnum = true ↔ Covers .alphanumeric t := by
  simp only [List.all_eq_true, isAlnum_iff_mem_listing, Covers]

/-- Every digit is in the listing (R101). -/
theorem covers_alphanumeric_of_numeric {t : List Byte} (h : Covers .numeric t) : Covers .alphanumeric t :=
  fun c hc => (mem_listing_iff _).2 (.inl (h c hc))

theorem classify_numeric {t : List Byte} (h : Covers .numeric t) : classify t = .numeric :=
  if_pos ((all_isDigit_iff t).2 h)

theorem classify_alphanumeric {t : List Byte} (h1 : ¬ Covers .numeric t) (h2 : Covers .alphanumeric t) :
    classify t = .alphanumeric := by
  rw [classify, if_neg (h1 ∘ (all_isDigit_iff t).1), if_pos ((all_isAlnum_iff t).2 h2)]

theorem classify_byte {t : List Byte} (h : ¬ Covers .alphanumeric t) : classify t = .byte := by
  have hnum : ¬ Covers .numeric t := h ∘ covers_alphanumeric_of_numeric
  rw [classify, if_neg (hnum ∘ (all_isDigit_iff t).1), if_neg (h ∘ (all_isAlnum_iff t).1)]

/-- The three classes exclude one another and leave out no text (R102). -/
theorem classify_cases (t : List Byte) :
    (Covers .numeric t ∧ Covers .alphanumeric t ∧ classify t = .numeric)
    ∨ (¬ Covers .numeric t ∧ Covers .alphanumeric t ∧ classify t = .alphanumeric)
    ∨ (¬ Covers .numeric t ∧ ¬ Covers .alphanumeric t ∧ classify t = .byte) := by
  by_cases halnum : Covers .alphanumeric t
  · by_cases hnum : Covers .numeric t
    · exact .inl ⟨hnum, halnum, classify_numeric hnum⟩
    · exact .inr (.inl ⟨hnum, halnum, classify_alphanumeric hnum halnum⟩)
  · exact .inr (.inr ⟨halnum ∘ covers_alphanumeric_of_numeric, halnum, classify_byte halnum⟩)

/-- The classified mode covers its text (R106). -/
theorem covers_classify (t : List Byte) : Covers (classify t) t := by
  obtain ⟨hnum, -, h⟩ | ⟨-, halnum, h⟩ | ⟨-, -, h⟩ := classify_cases t <;> rw [h]
  · exact hnum
  · exact halnum
  · trivial

/-- Settles O14: in each of the three classes the sets of characters decide all three equivalences. -/
theorem classificationRule : Obligations.ClassificationRule := by
  intro t _
  have hbyte : (∃ c ∈ t, c.toNat ∉ listing) ↔ ¬ Covers .alphanumeric t := by simp [Covers]
  rw [hbyte]
  change (_ ↔ Covers .numeric t) ∧ (_ ↔ ¬ Covers .numeric t ∧ Covers .alphanumeric t) ∧ _
  obtain ⟨hnum, halnum, h⟩ | ⟨hnum, halnum, h⟩ | ⟨hnum, halnum, h⟩ := classify_cases t <;>
    simp [h, hnum, halnum]

/-! ### `CLS` -/

theorem exec_cls_ready {s : State} (herr : s.err = .noError) (hstage : s.stage = .idle) :
    exec .cls s = .next (clsBody s) := by rw [exec_cls, accept_ready herr hstage]

theorem clsBody_of_nonempty {s : State} (h : s.tlen ≠ 0) :
    clsBody s = { s with mode := chosenMode s, stage := .classified } := if_neg h

theorem chosenMode_requested {s : State} (h : s.modeReq ≠ 0) : chosenMode s = s.modeReq := if_neg h

theorem chosenMode_classified {s : State} (h : s.modeReq = 0) : chosenMode s = modeCode (classify (chars s)) := if_pos h

/-- With no request, `CLS` leaves the mode of the text (R103). -/
theorem exec_cls_of_auto {s : State} (herr : s.err = .noError) (hstage : s.stage = .idle) (hne : s.tlen ≠ 0)
    (hreq : s.modeReq = 0) : ∃ t : State, exec .cls s = .next t ∧ t.err = .noError ∧ t.stage = .classified
      ∧ t.mode = modeCode (classify (chars t)) := by
  refine ⟨_, exec_cls_ready herr hstage, ?_⟩
  rw [clsBody_of_nonempty hne]
  exact ⟨herr, rfl, chosenMode_classified hreq⟩

/-- Settles O13: the empty text, the request, and the three classes of the text. -/
theorem clsChoosesMode : Obligations.ClsChoosesMode := by
  refine ⟨decode_encode .cls, fun s herr hstage => ?_⟩
  rw [exec_cls_ready herr hstage]
  refine ⟨fun hempty => ?_, fun hne hreq => ?_, fun hne hreq hnum => ?_, fun hne hreq hnum halnum => ?_,
    fun hne hreq halnum => ?_⟩
  · rw [clsBody, if_pos hempty, raise]
  · rw [clsBody_of_nonempty hne, chosenMode_requested hreq]
  · rw [clsBody_of_nonempty hne, chosenMode_classified hreq, classify_numeric hnum, modeCode]
  · rw [clsBody_of_nonempty hne, chosenMode_classified hreq, classify_alphanumeric hnum halnum, modeCode]
  · rw [clsBody_of_nonempty hne, chosenMode_classified hreq, classify_byte halnum, modeCode]

/-! ### The payload, group by group -/

theorem digitAt_group_sub {t : List Byte} {j : Nat} (a b c : Byte) (h : j ≤ t.length) :
    digitAt (a :: b :: c :: t) (t.length + 3 - j) = digitAt t (t.length - j) := by
  rw [Nat.sub_add_comm h]
  rfl

theorem indexAt_pair_sub {t : List Byte} {j : Nat} (a b : Byte) (h : j ≤ t.length) :
    indexAt (a :: b :: t) (t.length + 2 - j) = indexAt t (t.length - j) := by
  rw [Nat.sub_add_comm h]
  rfl

/-- The Numeric payload begins with the group of the first three digits (R108). -/
theorem payloadBits_numeric_group (a b c : Byte) (t : List Byte) :
    payloadBits .numeric (a :: b :: c :: t) =
      bitsOf (100 * (a.toNat - 0x30) + 10 * (b.toNat - 0x30) + (c.toNat - 0x30)) 10 ++ payloadBits .numeric t := by
  have hlen : (a :: b :: c :: t).length = t.length + 3 := rfl
  simp only [payloadBits, hlen, Nat.add_mod_right, Nat.add_div_right _ (show 0 < 3 by decide), Nat.succ_eq_add_one,
    List.range_succ_eq_map, List.flatMap_cons, List.flatMap_map, List.append_assoc]
  congr 2
  split_ifs with h2 h1
  · rw [digitAt_group_sub a b c (by omega), digitAt_group_sub a b c (by omega)]
  · rw [digitAt_group_sub a b c (by omega)]
  · rfl

/-- The Alphanumeric payload begins with the pair of the first two characters (R109). -/
theorem payloadBits_alphanumeric_pair (a b : Byte) (t : List Byte) :
    payloadBits .alphanumeric (a :: b :: t) =
      bitsOf (45 * listing.idxOf a.toNat + listing.idxOf b.toNat) 11 ++ payloadBits .alphanumeric t := by
  have hlen : (a :: b :: t).length = t.length + 2 := rfl
  simp only [payloadBits, hlen, Nat.add_mod_right, Nat.add_div_right _ (show 0 < 2 by decide), Nat.succ_eq_add_one,
    List.range_succ_eq_map, List.flatMap_cons, List.flatMap_map, List.append_assoc]
  congr 2
  split_ifs with h1
  · rw [indexAt_pair_sub a b (by omega)]
  · rfl

theorem payloadBits_numeric : ∀ t : List Byte,
    payloadBits .numeric t = numericBits (t.map fun c => c.toNat - 0x30)
  | a :: b :: c :: t => by
    rw [payloadBits_numeric_group, payloadBits_numeric t]
    rfl
  | [_, _] => by simp [payloadBits, numericBits, digitAt]
  | [_] => by simp [payloadBits, numericBits, digitAt]
  | [] => rfl

theorem payloadBits_alphanumeric : ∀ t : List Byte,
    payloadBits .alphanumeric t = alnumBits (t.map fun c => listing.idxOf c.toNat)
  | a :: b :: t => by
    rw [payloadBits_alphanumeric_pair, payloadBits_alphanumeric t]
    rfl
  | [_] => by simp [payloadBits, alnumBits, indexAt]
  | [] => rfl

theorem payloadBits_byte (t : List Byte) : payloadBits .byte t = bytesToBits t := by
  have hcells : (List.range t.length).map (fun i => t.getD i 0) = t :=
    List.ext_getElem (by simp) (by simp +contextual)
  conv_rhs => rw [bytesToBits, ← hcells, List.flatMap_map]
  rfl

/-- The payload lengths of R108 to R110. -/
theorem payloadBits_length (m : Mode) (t : List Byte) : (payloadBits m t).length = payloadLength m t.length := by
  cases m with
  | numeric => rw [payloadBits_numeric, numericBits_length, List.length_map, payloadLength]
  | alphanumeric => rw [payloadBits_alphanumeric, alnumBits_length, List.length_map, payloadLength]
  | byte => rw [payloadBits_byte, bytesToBits_length, payloadLength]
  | kanji => rfl

/-- A covered text has the payload of its mode (R108 to R110). -/
theorem payload_of_covers {m : Mode} {t : List Byte} (h : Covers m t) : payload m t = .ok (payloadBits m t) := by
  cases m with
  | numeric => rw [payload_numeric fun c hc => (isDigit_iff c).2 (h c hc), payloadBits_numeric]
  | alphanumeric =>
    have hindex : t.mapM alnumIndex = some (t.map fun c => listing.idxOf c.toNat) :=
      mapM_eq_some fun c hc => alnumIndex_of_mem (h c hc)
    simp only [payload, hindex, payloadBits_alphanumeric]
  | byte => rw [payload_byte, payloadBits_byte]
  | kanji => exact h.elim

/-- A character outside the mode's set (R106). -/
theorem payload_of_not_covers {m : Mode} {t : List Byte} (hm : m ≠ .kanji) (h : ¬ Covers m t) :
    payload m t = .error .eChar := by
  cases m with
  | numeric =>
    obtain ⟨c, hc, hdigit⟩ : ∃ c ∈ t, ¬ DigitCode c := by simpa [Covers] using h
    exact payload_numeric_error hc (Bool.eq_false_iff.2 (hdigit ∘ (isDigit_iff c).1))
  | alphanumeric =>
    obtain ⟨c, hc, hlisted⟩ : ∃ c ∈ t, c.toNat ∉ listing := by simpa [Covers] using h
    exact payload_alphanumeric_error hc (Bool.eq_false_iff.2 (hlisted ∘ (isAlnum_iff_mem_listing c).1))
  | byte => exact absurd trivial h
  | kanji => exact absurd rfl hm

/-! ### The padded sequence -/

/-- The count field has the width that the header length leaves it (R107). -/
theorem header_eq (m : Mode) (n : Nat) :
    header m n = bitsOf (modeCode m).toNat 4 ++ bitsOf n (headerLength m - 4) := by cases m <;> rfl

theorem headerPayload_length (m : Mode) (t : List Byte) :
    (header m t.length ++ payloadBits m t).length = hp m t.length := by
  have hheader : 4 + (headerLength m - 4) = headerLength m := by cases m <;> rfl
  rw [header_eq, List.length_append, List.length_append, bitsOf_length, bitsOf_length, hheader, payloadBits_length, hp]

/-- The filler bytes as the bit strings of R80. -/
theorem filler_eq (n : Nat) : filler n = (List.range n).flatMap fillerBits := by
  have hbits : (fun k => bitsOf (if k % 2 = 0 then 0xEC else 0x11) 8) = fillerBits := by
    funext k
    unfold fillerBits
    split_ifs <;> rfl
  rw [filler, hbits]

theorem paddedSequence_eq_pad (m : Mode) (cap : Nat) (t : List Byte) :
    paddedSequence m cap t = pad cap (header m t.length ++ payloadBits m t) := by
  simp only [pad, terminator, alignment, List.length_append (bs := List.replicate _ false), List.length_replicate,
    headerPayload_length, filler_eq, paddedSequence, ← header_eq]

theorem paddedSequence_length {m : Mode} {cap : Nat} {t : List Byte} (h8 : cap % 8 = 0) (h : hp m t.length ≤ cap) :
    (paddedSequence m cap t).length = cap := by
  rw [paddedSequence_eq_pad]
  exact pad_length _ _ h8 (by rwa [headerPayload_length])

/-! ### What `ENC` makes of a text -/

/-- A covered text is encoded or exceeds the capacity (R112, R116). -/
theorem encodeText_of_covers {m : Mode} {level tlen : Byte} {t : List Byte} (hcov : Covers m t)
    (hlen : t.length = tlen.toNat) : encodeText (modeCode m) level tlen t =
      if params.cap level < hp m tlen.toNat then .error .eOverflow
      else .ok (paddedSequence m (params.cap level) t) := by
  simp only [encodeText, modeOfCode_modeCode, payload_of_covers hcov, ← hlen, headerPayload_length,
    paddedSequence_eq_pad]

theorem encodeText_of_not_covers {m : Mode} (level tlen : Byte) {t : List Byte} (hm : m ≠ .kanji)
    (hcov : ¬ Covers m t) : encodeText (modeCode m) level tlen t = .error .eChar := by
  simp only [encodeText, modeOfCode_modeCode, payload_of_not_covers hm hcov]

/-- The mode check is failed by the values that name no mode and by Kanji (R105, R111). -/
theorem encodeText_of_unserved {mode : BitVec 4} (level tlen : Byte) (t : List Byte)
    (h : mode ≠ 1 ∧ mode ≠ 2 ∧ mode ≠ 4) : encodeText mode level tlen t = .error .eMode := by
  have hmode : modeOfCode mode = none ∨ modeOfCode mode = some .kanji := by
    revert mode
    decide
  obtain hnone | hkanji := hmode
  · simp only [encodeText, hnone]
  · simp only [encodeText, hkanji, payload_kanji]

/-- A mode value fails the mode check, or it is the code of one of the three modes with an encoder (R74, R105). -/
theorem mode_cases (mode : BitVec 4) :
    (mode ≠ 1 ∧ mode ≠ 2 ∧ mode ≠ 4) ∨ ∃ m : Mode, m ≠ .kanji ∧ mode = modeCode m := by
  by_cases h1 : mode = 1
  · exact .inr ⟨.numeric, by decide, h1⟩
  by_cases h2 : mode = 2
  · exact .inr ⟨.alphanumeric, by decide, h2⟩
  by_cases h4 : mode = 4
  · exact .inr ⟨.byte, by decide, h4⟩
  exact .inl ⟨h1, h2, h4⟩

/-- The three checks of a mode with an encoder, in their order (R106, R112, R207). -/
theorem encodeText_cases_of_served {m : Mode} {level tlen : Byte} {t : List Byte} (hm : m ≠ .kanji)
    (hlen : t.length = tlen.toNat) :
    (¬ Covers m t ∧ encodeText (modeCode m) level tlen t = .error .eChar)
    ∨ (Covers m t ∧ params.cap level < hp m tlen.toNat ∧ encodeText (modeCode m) level tlen t = .error .eOverflow)
    ∨ (Covers m t ∧ hp m tlen.toNat ≤ params.cap level
        ∧ encodeText (modeCode m) level tlen t = .ok (paddedSequence m (params.cap level) t)) := by
  by_cases hcov : Covers m t
  · rw [encodeText_of_covers hcov hlen]
    by_cases hover : params.cap level < hp m tlen.toNat
    · exact .inr (.inl ⟨hcov, hover, if_pos hover⟩)
    · exact .inr (.inr ⟨hcov, Nat.le_of_not_lt hover, if_neg hover⟩)
  · exact .inl ⟨hcov, encodeText_of_not_covers level tlen hm hcov⟩

theorem encodeText_eq_eMode_iff {mode : BitVec 4} {level tlen : Byte} {t : List Byte} (hlen : t.length = tlen.toNat) :
    encodeText mode level tlen t = .error .eMode ↔ mode ≠ 1 ∧ mode ≠ 2 ∧ mode ≠ 4 := by
  refine ⟨fun h => ?_, encodeText_of_unserved level tlen t⟩
  obtain hunserved | ⟨m, hm, rfl⟩ := mode_cases mode
  · exact hunserved
  · obtain ⟨-, h'⟩ | ⟨-, -, h'⟩ | ⟨-, -, h'⟩ := encodeText_cases_of_served (level := level) hm hlen <;>
      simp [h'] at h

theorem encodeText_eq_eChar_iff {m : Mode} {level tlen : Byte} {t : List Byte} (hm : m ≠ .kanji)
    (hlen : t.length = tlen.toNat) : encodeText (modeCode m) level tlen t = .error .eChar ↔ ¬ Covers m t := by
  obtain ⟨hcov, h⟩ | ⟨hcov, -, h⟩ | ⟨hcov, -, h⟩ := encodeText_cases_of_served (level := level) hm hlen <;>
    simp [h, hcov]

theorem encodeText_eq_eOverflow_iff {m : Mode} {level tlen : Byte} {t : List Byte} (hcov : Covers m t)
    (hlen : t.length = tlen.toNat) :
    encodeText (modeCode m) level tlen t = .error .eOverflow ↔ params.cap level < hp m tlen.toNat := by
  rw [encodeText_of_covers hcov hlen]
  split_ifs with hover <;> simp [hover]

/-! ### `ENC` -/

theorem exec_enc_ready {s : State} (herr : s.err = .noError) (hstage : s.stage = .classified) :
    exec .enc s = .next (encBody s) := by rw [exec_enc, accept_ready herr hstage]

theorem encBody_of_ok {s : State} {b : BitSeq} (h : encodeText s.mode s.level s.tlen (chars s) = .ok b) :
    encBody s = { s with bits := b, stage := .encoded } := by
  simp only [encBody, h]

theorem encBody_of_error {s : State} {e : ErrCode} (h : encodeText s.mode s.level s.tlen (chars s) = .error e) :
    encBody s = raise e s := by
  simp only [encBody, h]

/-- `ENC` raises the error that keeps the sequence from being built, and no other (R104, R208). -/
theorem exec_enc_raises_iff {s : State} (herr : s.err = .noError) (hstage : s.stage = .classified) {e : ErrCode}
    (he : e ≠ .noError) : exec .enc s = .next { s with err := e } ↔
      encodeText s.mode s.level s.tlen (chars s) = .error e := by
  rw [exec_enc_ready herr hstage]
  refine ⟨fun h => ?_, fun h => congrArg _ (encBody_of_error h)⟩
  have hraised : (encBody s).err = e := congrArg State.err (next_inj h)
  obtain ⟨e', hencode, hbody⟩ | ⟨d, -, hbody⟩ := encBody_cases s
  · rw [hencode, ← hraised, hbody, raise_err]
  · exact absurd (hraised.symm.trans (congrArg State.err hbody)) (herr ▸ he)

/-- `ENC` on a covered text that its level holds (R104). -/
theorem exec_enc_of_fits {s : State} {m : Mode} (herr : s.err = .noError) (hstage : s.stage = .classified)
    (hmode : s.mode = modeCode m) (hcov : Covers m (chars s)) (hfit : hp m s.tlen.toNat ≤ params.cap s.level) :
    exec .enc s =
      .next { s with bits := paddedSequence m (params.cap s.level) (chars s), stage := .encoded } := by
  have hok : encodeText s.mode s.level s.tlen (chars s) = .ok (paddedSequence m (params.cap s.level) (chars s)) := by
    rw [hmode, encodeText_of_covers hcov (chars_length s), if_neg (Nat.not_lt.2 hfit)]
  rw [exec_enc_ready herr hstage, encBody_of_ok hok]

/-- `ENC` on a covered text that exceeds the capacity (R112). -/
theorem exec_enc_overflows_iff {s : State} {m : Mode} (herr : s.err = .noError) (hstage : s.stage = .classified)
    (hmode : s.mode = modeCode m) (hcov : Covers m (chars s)) :
    exec .enc s = .next { s with err := .eOverflow } ↔ params.cap s.level < hp m s.tlen.toNat := by
  rw [exec_enc_raises_iff herr hstage (by decide), hmode, encodeText_eq_eOverflow_iff hcov (chars_length s)]

/-- Settles O16: the model's padding, on the model's header and payload, is the closed form. -/
theorem encBuildsSequence : Obligations.EncBuildsSequence := by
  refine ⟨decode_encode .enc, fun s m herr hstage hmode hcov hfit => ?_⟩
  have hlen := chars_length s
  exact ⟨exec_enc_of_fits herr hstage hmode hcov hfit,
    paddedSequence_length (cap_mod_eight s.level) (by rwa [hlen]), hlen⟩

/-- Settles O17: each error of the sequence builder exactly when its check is the first to fail. -/
theorem encRaisesFirstError : Obligations.EncRaisesFirstError := by
  intro s herr hstage
  have hlen := chars_length s
  refine ⟨?_, fun m hm hmode => ?_, fun m _ hmode hcov => (exec_enc_overflows_iff herr hstage hmode hcov).symm⟩
  · rw [exec_enc_raises_iff herr hstage (by decide), encodeText_eq_eMode_iff hlen]
  · rw [exec_enc_raises_iff herr hstage (by decide), hmode, encodeText_eq_eChar_iff hm hlen]

/-- Settles O18: the classified mode covers its text, so only the capacity check can fail. -/
theorem classifiedModeCoversItsText : Obligations.ClassifiedModeCoversItsText := by
  intro s herr hstage hne hreq
  obtain ⟨t, hcls, hterr, htstage, hmode⟩ := exec_cls_of_auto herr hstage hne hreq
  have hcov := covers_classify (chars t)
  obtain hover | hfit := Nat.lt_or_ge (params.cap t.level) (hp (classify (chars t)) t.tlen.toNat)
  · exact ⟨t, _, hcls, hterr, (exec_enc_overflows_iff hterr htstage hmode hcov).2 hover, .inr rfl⟩
  · exact ⟨t, _, hcls, hterr, exec_enc_of_fits hterr htstage hmode hcov hfit, .inl hterr⟩

/-! ### The longest texts -/

/-- The columns of the table of R117, for L, Q, H and for M with every other level value. -/
theorem cap_longestText_cases (level : Byte) :
    (params.cap level = 640 ∧ longestText .numeric level = 187 ∧ longestText .alphanumeric level = 114
        ∧ longestText .byte level = 78)
    ∨ (params.cap level = 384 ∧ longestText .numeric level = 111 ∧ longestText .alphanumeric level = 67
        ∧ longestText .byte level = 46)
    ∨ (params.cap level = 288 ∧ longestText .numeric level = 82 ∧ longestText .alphanumeric level = 50
        ∧ longestText .byte level = 34)
    ∨ (params.cap level = 512 ∧ longestText .numeric level = 149 ∧ longestText .alphanumeric level = 90
        ∧ longestText .byte level = 62) := by
  simp only [params, capOf, longestText]
  split <;> simp_all

/-- The table of R117 inverts the lengths of R107 to R110 at the capacities of R7. -/
theorem hp_le_cap_iff {m : Mode} (hm : m ≠ .kanji) (level : Byte) (n : Nat) :
    hp m n ≤ params.cap level ↔ n ≤ longestText m level := by
  have htable := cap_longestText_cases level
  cases m with
  | numeric =>
    simp only [hp, headerLength, payloadLength]
    split_ifs <;> omega
  | alphanumeric =>
    simp only [hp, headerLength, payloadLength]
    omega
  | byte =>
    simp only [hp, headerLength, payloadLength]
    omega
  | kanji => exact absurd rfl hm

/-- Settles O19: the table bounds exactly the texts whose header and payload fit. -/
theorem longestTextThatFits : Obligations.LongestTextThatFits := by
  intro s m hm herr hstage hmode hcov
  have htable := hp_le_cap_iff hm s.level s.tlen.toNat
  refine ⟨fun hfit => ⟨_, exec_enc_of_fits herr hstage hmode hcov (htable.2 hfit), herr, rfl⟩, fun hover => ?_⟩
  exact (exec_enc_overflows_iff herr hstage hmode hcov).2 (Nat.lt_of_not_le (mt htable.1 (Nat.not_le.2 hover)))

end Sys2Proof.Machine
end

section
/-! The family of `41_redundancy.md`: what `RED` appends (R130, R131, R133), the redundancy codewords in closed form
(R132) and the lengths (R134). -/

namespace Sys2Proof.Machine

theorem exec_red_ready {s : State} (herr : s.err = .noError) (hstage : s.stage = .encoded) :
    exec .red s = .next (redBody s) := by rw [exec_red, accept_ready herr hstage]

/-- The fold of a redundancy cell, over the positions that select it (R132). -/
theorem foldedInto_eq_foldl (nr j i : Nat) (ds : List Byte) (x : Byte) : foldedInto nr j i ds x =
    ((List.range ds.length).filter fun k => (i + k) % nr == j).foldl (fun x k => x ^^^ ds.getD k 0) x := by
  induction ds generalizing i x with
  | nil => rfl
  | cons d ds ih =>
    have hshift : ∀ k, i + 1 + k = i + (k + 1) := fun k => by omega
    rw [foldedInto, ih, List.length_cons, List.range_succ_eq_map, List.filter_cons, List.filter_map]
    by_cases hj : i % nr = j <;>
      simp [hj, hshift, List.foldl_map, Function.comp_def]

/-- Settles O20: the re-expanded data codewords are the whole groups of the data. -/
theorem redAppendsRedundancy : Obligations.RedAppendsRedundancy := by
  refine ⟨decode_encode .red, fun s herr hstage => ?_⟩
  rw [exec_red_ready herr hstage, redBody, appendRedundancy_eq, dataCodewords]

/-- Settles O21: each cell starts at 0 and takes the codewords of its positions and no others. -/
theorem redundancyIsXorFold : Obligations.RedundancyIsXorFold := by
  refine fun data nr _ => ⟨redundancy_length data nr, fun j hj => ?_⟩
  have hcell : j < (List.replicate nr (0 : Byte)).length := by rwa [List.length_replicate]
  have hzero : (List.replicate nr (0 : Byte)).getD j 0 = 0 := by simp [hj]
  rw [redundancy, foldCodewords_getD nr 0 j data _ hcell, hzero, foldedInto_eq_foldl]
  simp only [Nat.zero_add]

/-- Settles O22: the capacity and eight bits for each redundancy codeword, at each level. -/
theorem redLengths : Obligations.RedLengths := by
  intro s herr hstage hfull
  have hlen : (redBody s).bits.length = params.cap s.level + 8 * params.nred s.level := by
    rw [redBody_bits, appendRedundancy_length_of_cap hfull]
  refine ⟨redBody s, exec_red_ready herr hstage, ?_⟩
  rw [hlen]
  refine ⟨cap_add_nred_le s.level, fun h => ?_, fun h => ?_, fun h => ?_, fun h => ?_, fun h => ?_⟩
  · rw [h]; rfl
  · rw [h]; rfl
  · rw [h]; rfl
  · rw [h]; rfl
  · simp only [params, capOf_of_three_lt h, nredOf_of_three_lt h]

end Sys2Proof.Machine
end

section
/-! The family of `42_matrix.md`: the cells `STR` stamps (R140 to R146), the scan order (R148) and the placement of the
bits along it (R147, R149 to R151). -/

namespace Sys2Proof.Machine

open Sys2Proof.Claims

/-! ### The scan order -/

/-- The scan order as the column pairs of R148. -/
theorem scanOrder_eq_pairs :
    scanOrder = (List.range 16).flatMap fun k => pairCells (k % 2 == 0) (pairRight k) := scanOrder_pairs

theorem pairRight_bounds {k : Nat} (h : k < 16) : 1 ≤ pairRight k ∧ pairRight k ≤ 32 := by
  unfold pairRight
  split <;> omega

/-- A later pair lies wholly to the left of an earlier one (R148). -/
theorem pairRight_add_two_le {i j : Nat} (hij : i < j) (hj : j < 16) : pairRight j + 2 ≤ pairRight i := by
  unfold pairRight
  split <;> split <;> omega

/-- The columns of the sixteen pairs are all columns but 6 (R148). -/
theorem exists_pairRight_iff {c : Nat} (h : c < 33) :
    (∃ k < 16, c = pairRight k ∨ c + 1 = pairRight k) ↔ c ≠ 6 := by
  unfold pairRight
  constructor
  · rintro ⟨k, hk, hc⟩
    split at hc <;> omega
  · intro hc
    by_cases hright : 6 < c
    · exact ⟨(32 - c) / 2, by omega, by rw [if_pos (by omega)]; omega⟩
    · exact ⟨15 - c / 2, by omega, by rw [if_neg (by omega)]; omega⟩

/-- The cells of pair `k` are those of its two columns. -/
theorem mem_pairCells_pairRight {k : Nat} (hk : k < 16) (up : Bool) (p : Fin 33 × Fin 33) :
    p ∈ pairCells up (pairRight k) ↔ p.2.val = pairRight k ∨ p.2.val + 1 = pairRight k := by
  obtain ⟨hpos, hle⟩ := pairRight_bounds hk
  rw [mem_pairCells, Fin.ext_iff, Fin.ext_iff, Fin.val_ofNat, Fin.val_ofNat, Nat.mod_eq_of_lt (by omega),
    Nat.mod_eq_of_lt (by omega)]
  omega

/-- The scan visits exactly the cells outside column 6 (R148). -/
theorem mem_scanOrder_iff (p : Fin 33 × Fin 33) : p ∈ scanOrder ↔ p.2.val ≠ 6 := by
  rw [scanOrder_eq_pairs, ← exists_pairRight_iff p.2.isLt, List.mem_flatMap]
  refine exists_congr fun k => ?_
  rw [List.mem_range]
  exact and_congr_right fun hk => mem_pairCells_pairRight hk _ p

theorem scanOrder_length : scanOrder.length = 1056 := by
  simp [scanOrder_eq_pairs, List.length_flatMap]

/-- The scan visits no cell twice: each pair has two different columns, and no two pairs share one. -/
theorem scanOrder_nodup : scanOrder.Nodup := by
  rw [scanOrder_eq_pairs, List.nodup_flatMap]
  refine ⟨fun k hk => pairCells_nodup _ fun heq => ?_, ?_⟩
  · obtain ⟨hpos, hle⟩ := pairRight_bounds (List.mem_range.1 hk)
    rw [Fin.ext_iff, Fin.val_ofNat, Fin.val_ofNat, Nat.mod_eq_of_lt (by omega),
      Nat.mod_eq_of_lt (by omega)] at heq
    omega
  · refine List.pairwise_lt_range.imp_of_mem fun {i j} hi hj hij p hpi hpj => ?_
    have hleft := pairRight_add_two_le hij (List.mem_range.1 hj)
    rw [mem_pairCells_pairRight (List.mem_range.1 hi)] at hpi
    rw [mem_pairCells_pairRight (List.mem_range.1 hj)] at hpj
    omega

/-- An entry of a list made of blocks of one length `n`: entry `j` of block `i`. -/
theorem getElem?_flatMap_blocks {α β : Type} {f : α → List β} {n : Nat} (hf : ∀ a, (f a).length = n)
    (l : List α) (i : Nat) {j : Nat} (hj : j < n) :
    (l.flatMap f)[n * i + j]? = l[i]?.bind fun a => (f a)[j]? := by
  induction l generalizing i with
  | nil => simp
  | cons a l ih =>
    rw [List.flatMap_cons]
    cases i with
    | zero => rw [Nat.mul_zero, Nat.zero_add, List.getElem?_append_left (by rwa [hf])]; rfl
    | succ i =>
      have hskip : n * (i + 1) + j - (f a).length = n * i + j := by rw [hf, Nat.mul_succ]; omega
      rw [List.getElem?_append_right (by rw [hf, Nat.mul_succ]; omega), hskip, ih, List.getElem?_cons_succ]

/-- The entry of a column pair at row step `t` (R148): upward from row 32 or downward from row 0, the right column
before the left. -/
theorem getElem?_pairCells (up : Bool) (right : Nat) (t : Fin 33) (side : Fin 2) :
    (pairCells up right)[2 * t.val + side.val]? =
      some (if up then t.rev else t, Fin.ofNat 33 (right - side.val)) := by
  have hrow : (List.finRange 33)[t.val]? = some t := by simp
  rw [pairCells, getElem?_flatMap_blocks (n := 2) (fun _ => rfl) _ _ side.isLt, hrow, Option.bind_some]
  match side with
  | 0 => rfl
  | 1 => rfl

/-- Entry `2 * t + side` of pair `k` in the scan order (R148). -/
theorem getElem?_scanOrder (k : Fin 16) (t : Fin 33) (side : Fin 2) :
    scanOrder[66 * k.val + 2 * t.val + side.val]? =
      some (if k.val % 2 == 0 then t.rev else t, Fin.ofNat 33 (pairRight k.val - side.val)) := by
  rw [scanOrder_eq_pairs, Nat.add_assoc, getElem?_flatMap_blocks (fun _ => pairCells_length _ _) _ _ (by omega),
    List.getElem?_range k.isLt, Option.bind_some, getElem?_pairCells]

/-- Settles O25: the order is sixteen blocks of 66 cells, each two columns of 33 rows. -/
theorem scanOrderClosedForm : Obligations.ScanOrderClosedForm := by
  refine ⟨scanOrder_length, scanOrder_nodup, fun p hp => (mem_scanOrder_iff p).1 hp, fun k t side => ?_⟩
  obtain ⟨hpos, hle⟩ := pairRight_bounds k.isLt
  rw [List.getD_eq_getElem?_getD, getElem?_scanOrder, Option.getD_some, Fin.val_ofNat]
  refine ⟨?_, Nat.mod_eq_of_lt (by omega)⟩
  by_cases hup : k.val % 2 = 0
  · simp [hup, Fin.val_rev]
  · simp [hup]

/-! ### `STR` -/

theorem exec_str_ready {s : State} (herr : s.err = .noError) (hstage : s.stage = .redundant) :
    exec .str s = .next (strBody s) := by rw [exec_str, accept_ready herr hstage]

/-- Settles O23: the stamps, read by coordinates, are the description. -/
theorem strStampsStructure : Obligations.StrStampsStructure := by
  refine ⟨decode_encode .str, fun s herr hstage => ⟨strBody s, exec_str_ready herr hstage, rfl, fun r c => ?_⟩⟩
  rw [strBody_grid, cell_structuralGrid]

/-- The count of a grid's cells that hold `m`, as the cells that hold it. -/
theorem countCells_eq_length_filter (g : Grid) (m : Module) : countCells g m =
    ((List.finRange 33 ×ˢ List.finRange 33).filter fun p => g.cell p.1 p.2 == m).length := by
  have hcells : ((List.finRange 33).flatMap fun r => (List.finRange 33).map fun c => g.cell r c) =
      (List.finRange 33 ×ˢ List.finRange 33).map fun p => g.cell p.1 p.2 := by
    simp only [SProd.sprod, List.product, List.map_flatMap, List.map_map, Function.comp_def]
  rw [countCells, hcells, List.count_eq_countP, List.countP_map, List.countP_eq_length_filter]
  rfl

/-- The scan meets every Unset cell of a grid that has none in column 6 (R148, R151). -/
theorem length_scanned_unset {g : Grid} (h : ∀ r : Fin 33, g.cell r 6 ≠ .unset) :
    (scanOrder.filter fun p => g.cell p.1 p.2 == .unset).length = countCells g .unset := by
  have hall : (List.finRange 33 ×ˢ List.finRange 33).Nodup :=
    (List.nodup_finRange 33).product (List.nodup_finRange 33)
  rw [countCells_eq_length_filter]
  refine ((List.perm_ext_iff_of_nodup (scanOrder_nodup.filter _) (hall.filter _)).2 fun (r, c) => ?_).length_eq
  have hcol : g.cell r c = .unset → c.val ≠ 6 := fun hp heq => h r (by rwa [← show c = 6 from Fin.ext heq])
  simpa [mem_scanOrder_iff, List.pair_mem_product] using hcol

/-- Column 6 holds finders, separators and the timing pattern in every row (R142 to R144). -/
theorem structuralModule_column_six (r : Nat) : structuralModule r 6 ≠ .unset := by
  unfold structuralModule
  split_ifs <;> simp_all

/-- The counts of R146, as sums of the counts of the rows. -/
theorem countCells_structuralGrid : countCells structuralGrid .dark = 118
    ∧ countCells structuralGrid .light = 109 ∧ countCells structuralGrid .unset = 862 := by
  simp only [countCells, cell_structuralGrid, List.count_flatMap, Function.comp_def]
  decide

/-- Settles O24: the cells of the coordinate description are counted, and the scan leaves out column 6 only. -/
theorem structuralCounts : Obligations.StructuralCounts := by
  obtain ⟨hdark, hlight, hunset⟩ := countCells_structuralGrid
  refine ⟨hdark, hlight, hunset, ?_⟩
  rw [length_scanned_unset, hunset]
  intro r
  rw [cell_structuralGrid]
  exact structuralModule_column_six r.val

/-! ### `PLC` -/

theorem exec_plc_ready {s : State} (herr : s.err = .noError) (hstage : s.stage = .structured) :
    exec .plc s = .next (plcBody s) := by rw [exec_plc, accept_ready herr hstage]

/-- Writing a cell does not change which of the other cells are Unset. -/
theorem filter_unset_setCell {ps : List (Fin 33 × Fin 33)} {p : Fin 33 × Fin 33} (h : p ∉ ps) (g : Grid)
    (m : Module) : (ps.filter fun q => (g.setCell p.1 p.2 m).cell q.1 q.2 == .unset) =
      ps.filter fun q => g.cell q.1 q.2 == .unset := by
  refine List.filter_congr fun q hq => ?_
  have hne : ¬ (q.1 = p.1 ∧ q.2 = p.2) := fun heq => h (Prod.ext heq.1 heq.2 ▸ hq)
  rw [cell_setCell, if_neg hne]

/-- Along a list without repeats the `k`-th Unset cell takes bit `k`, and stays Unset when the bits are used up
(R147, R149). -/
theorem cell_placeBits {ps : List (Fin 33 × Fin 33)} (bs : BitSeq) {g : Grid} (hnodup : ps.Nodup) {k : Nat}
    {p : Fin 33 × Fin 33} (hk : (ps.filter fun q => g.cell q.1 q.2 == .unset)[k]? = some p) :
    (placeBits ps bs g).cell p.1 p.2 = (bs[k]?.map bitModule).getD .unset := by
  induction ps, bs, g using placeBits.induct generalizing k with
  | case1 bs g => simp at hk
  | case2 q ps g =>
    have hp := List.mem_of_getElem? hk
    simpa [placeBits] using (List.mem_filter.1 hp).2
  | case3 q ps b bs g hq ih =>
    obtain ⟨hnot, hrest⟩ := List.nodup_cons.1 hnodup
    rw [List.filter_cons_of_pos (by simpa using hq)] at hk
    rw [placeBits, if_pos hq]
    cases k with
    | zero =>
      obtain rfl : q = p := by simpa using hk
      rw [placeBits_not_mem _ _ _ _ _ hnot, cell_setCell, if_pos ⟨rfl, rfl⟩]
      rfl
    | succ k =>
      refine ih hrest ?_
      rwa [filter_unset_setCell hnot]
  | case4 q ps b bs g hq ih =>
    rw [List.filter_cons_of_neg (by simpa using hq)] at hk
    rw [placeBits, if_neg hq]
    exact ih hnodup.of_cons hk

/-- After the zero fill the `k`-th Unset cell holds bit `k`, or Light when the bits are used up (R149, R150). -/
theorem cell_zeroFill_placeBits {ps : List (Fin 33 × Fin 33)} (bs : BitSeq) {g : Grid} (hnodup : ps.Nodup)
    {k : Nat} {p : Fin 33 × Fin 33} (hk : (ps.filter fun q => g.cell q.1 q.2 == .unset)[k]? = some p) :
    (zeroFill (placeBits ps bs g)).cell p.1 p.2 = bitModule (bs.getD k false) := by
  rw [cell_zeroFill, cell_placeBits bs hnodup hk, List.getD_eq_getElem?_getD]
  cases bs[k]? with
  | none => rfl
  | some b => exact if_neg (bitModule_ne_unset b)

/-- Settles O26: stamped cells are kept, the Unset cells of the scan take the bits in order, the zero fill makes the
rest Light. -/
theorem plcPlacesBitsInOrder : Obligations.PlcPlacesBitsInOrder := by
  refine ⟨decode_encode .plc, fun s herr hstage =>
    ⟨plcBody s, exec_plc_ready herr hstage, by simp only [plcBody], ?_⟩⟩
  rw [plcBody_grid]
  refine ⟨placedCell_structural scanOrder s.bits s.grid, fun k p hk => ?_, fun r c hunset hout => ?_,
    zeroFill_binary _⟩
  · exact cell_zeroFill_placeBits s.bits scanOrder_nodup hk
  · rw [cell_zeroFill, placeBits_not_mem _ _ _ _ _ hout, if_pos hunset]

end Sys2Proof.Machine
end

section
/-! The family of `43_mask.md`: the eligible cells and the mask predicates (R161, R162), mask application (R163), the
penalty over maximal runs (R164, R168), the selection (R165) and `MSK` (R160, R166). -/

namespace Sys2Proof.Machine

open Sys2Proof.Claims

/-! ### Eligible cells and mask predicates -/

/-- The eligible cells of a row: none in row 6, 15 between the two upper squares, all but column 6 beside no square,
24 to the right of the lower square (R161). -/
theorem length_eligible_row (r : Fin 33) : ((List.finRange 33).filter fun c => eligible r.val c.val).length =
    if r.val = 6 then 0 else if r.val ≤ 8 then 15 else if r.val ≤ 23 then 32 else 24 := by
  have hrow {p : Nat → Prop} [DecidablePred p] (h : ∀ c, eligible r.val c = true ↔ p c) :
      ((List.finRange 33).filter fun c => eligible r.val c.val) = (List.finRange 33).filter fun c => p c.val :=
    List.filter_congr fun c _ => by rw [Bool.eq_iff_iff, h, decide_eq_true_iff]
  simp only [eligible_iff] at hrow
  split_ifs with hsix htop hmiddle
  · rw [hrow (p := fun _ => False) (by simp [hsix])]; decide
  · rw [hrow (p := fun c => 9 ≤ c ∧ c ≤ 23) (by omega)]; decide
  · rw [hrow (p := fun c => c ≠ 6) (by omega)]; decide
  · rw [hrow (p := fun c => 9 ≤ c) (by omega)]; decide

/-- Settles O30: the cells are counted row by row, and a structural cell lies in an excluded square or line. -/
theorem structuralCellsNotEligible : Obligations.StructuralCellsNotEligible := by
  refine ⟨eligible_iff, ?_, fun r c h => ?_⟩
  · simp only [List.length_flatMap, length_eligible_row]
    decide
  · rw [cell_structuralGrid] at h
    exact eligible_false_of_structural h

/-- Settles O31: each entry of the table is the comparison of its expression with 0. -/
theorem maskPredicateTable : Obligations.MaskPredicateTable := fun _ _ =>
  ⟨beq_iff_eq, beq_iff_eq, beq_iff_eq, beq_iff_eq, beq_iff_eq, beq_iff_eq, beq_iff_eq, beq_iff_eq⟩

/-! ### Mask application -/

theorem cell_applyMask_selected {flips : Nat → Nat → Bool} {r c : Fin 33}
    (h : eligible r.val c.val = true ∧ flips r.val c.val = true) (g : Grid) :
    (applyMask flips g).cell r c = flipModule (g.cell r c) := by
  rw [cell_applyMask, if_pos (Bool.and_eq_true_iff.2 h)]

theorem cell_applyMask_not_selected {flips : Nat → Nat → Bool} {r c : Fin 33}
    (h : ¬ (eligible r.val c.val = true ∧ flips r.val c.val = true)) (g : Grid) :
    (applyMask flips g).cell r c = g.cell r c := by
  rw [cell_applyMask, if_neg (mt Bool.and_eq_true_iff.1 h)]

/-- At `STAGE = 5` the grid of a consistent state is the one `PLC` left, which has no Unset cell (R38, R150). -/
theorem binary_of_consistent {s : State} (h : Consistent s) (hs : s.stage = .placed) : s.grid.binary = true := by
  obtain ⟨-, -, hgrid, -⟩ := (consistent_placed hs).1 h
  rw [hgrid]
  exact placedGrid_binary s.bits

/-- Settles O29: masking is a flip of each selected cell, and a flip undoes itself. -/
theorem maskFlipsEligibleCells : Obligations.MaskFlipsEligibleCells := by
  refine ⟨fun flips g hbin => ⟨fun r c => ⟨fun hsel => ?_, fun hsel => cell_applyMask_not_selected hsel g⟩,
    applyMask_binary hbin, applyMask_applyMask flips g⟩, fun s => binary_of_consistent⟩
  rw [cell_applyMask_selected hsel]
  exact ⟨fun hlight => by rw [hlight, flipModule], fun hdark => by rw [hdark, flipModule]⟩

/-! ### The penalty -/

/-- A line that is one run adds what that run adds (R164). -/
theorem runsSum_replicate (m : Module) {n : Nat} (h : 1 ≤ n) : runsSum (List.replicate n m) = runPenalty n := by
  have hsplit : (List.replicate n m).splitBy (· == ·) = [List.replicate n m] := by
    refine List.splitBy_of_isChain (by simpa using Nat.ne_of_gt h) ?_
    exact List.isChain_replicate_of_rel n (beq_self_eq_true m)
  rw [runsSum, hsplit, List.map_singleton, List.sum_singleton, List.length_replicate, runPenalty]

/-- Where the module changes, a run ends: the two parts of the line add up (R164). -/
theorem runsSum_replicate_append_cons {m x : Module} (hne : x ≠ m) (n : Nat) (xs : List Module) :
    runsSum (List.replicate n m ++ x :: xs) = runsSum (List.replicate n m) + runsSum (x :: xs) := by
  have hend : ∀ y ∈ (List.replicate n m).getLast?, (y == x) = false := by
    intro y hy
    rw [List.eq_of_mem_replicate (List.mem_of_getLast? hy)]
    exact beq_false_of_ne hne.symm
  simp only [runsSum, List.splitBy_append_cons xs hend, List.map_append, List.sum_append]

/-- The count along a line, `n` cells into a run of `m`, is the sum over the maximal runs of that run and what
follows it (R164). -/
theorem runsPenalty_eq_runsSum (m : Module) {n : Nat} (h : 1 ≤ n) (xs : List Module) :
    runsPenalty m n xs = runsSum (List.replicate n m ++ xs) := by
  induction xs generalizing m n with
  | nil => rw [List.append_nil, runsSum_replicate m h, runsPenalty]
  | cons x xs ih =>
    rw [runsPenalty]
    split
    case isTrue heq =>
      rw [ih m (Nat.le_add_left 1 n), heq, List.replicate_succ', List.append_assoc, List.singleton_append]
    case isFalse hne =>
      rw [ih x le_rfl, runsSum_replicate_append_cons hne, runsSum_replicate m h, List.replicate_one,
        List.singleton_append]

theorem linePenalty_eq_runsSum (line : List Module) : linePenalty line = runsSum line := by
  cases line with
  | nil => rfl
  | cons x xs => exact runsPenalty_eq_runsSum x le_rfl xs

/-- Settles O33: row by row and column by column, by induction along the line. -/
theorem penaltySumsMaximalRuns : Obligations.PenaltySumsMaximalRuns := by
  intro g
  simp only [penalty, Grid.row, Grid.col, linePenalty_eq_runsSum]

/-- Settles O34: 66 lines of 33 modules add at most 31 each, far below `2 ^ 16`. -/
theorem penaltyFitsRegister : Obligations.PenaltyFitsRegister :=
  fun g => ⟨penalty_le g, fun flips k => scores_toNat flips g k⟩

/-! ### `MSK` -/

/-- Settles O32: the selection loop keeps the first minimum of the candidates it has seen. -/
theorem bestMaskIsFirstMinimum : Obligations.BestMaskIsFirstMinimum :=
  fun pen => ⟨bestMask_le pen, bestMask_lt pen⟩

theorem exec_msk_of_binary {s : State} (herr : s.err = .noError) (hstage : s.stage = .placed)
    (hbin : s.grid.binary = true) : exec .msk s = .next (maskedState params.maskFn s) := by
  rw [exec_msk, accept_ready herr hstage, mskBody, if_pos hbin]

theorem exec_msk_of_not_binary {s : State} (herr : s.err = .noError) (hstage : s.stage = .placed)
    (hbin : ¬ s.grid.binary = true) : exec .msk s = .fault .maskOfUnsetGrid := by
  rw [exec_msk, accept_ready herr hstage, mskBody, if_neg hbin]

/-- Settles O27: the scores are exact, the selection is their first minimum, and the same mask twice gives back the
grid. -/
theorem mskScoresAndApplies : Obligations.MskScoresAndApplies := by
  refine ⟨decode_encode .msk, fun s herr hstage hbin => ⟨maskedState params.maskFn s,
    bestMask (scores params.maskFn s.grid), exec_msk_of_binary herr hstage hbin, by simp only [maskedState], ?_⟩⟩
  rw [maskedState_maskSel, maskedState_pen, maskedState_grid]
  refine ⟨?_, scores_toNat params.maskFn s.grid, bestMask_le _, bestMask_lt _, rfl, ?_, applyMask_applyMask _ _⟩
  · rw [BitVec.toNat_ofNat]
    exact Nat.mod_eq_of_lt (bestMask _).isLt
  · rw [scores_toNat]

/-- Settles O28: an Unset cell is what makes a grid not binary. -/
theorem mskStopsOnUnsetCell : Obligations.MskStopsOnUnsetCell := by
  refine fun s hstage => ⟨fun herr ⟨r, c, hunset⟩ => exec_msk_of_not_binary herr hstage fun hbin => ?_, fun h => ?_⟩
  · exact (binary_iff s.grid).1 hbin r c hunset
  · have hbin := binary_of_consistent h hstage
    exact ⟨hbin, (binary_iff s.grid).1 hbin⟩

end Sys2Proof.Machine
end

section
/-! The family of `44_control.md`: command acceptance (R184), the transitions of `STAGE` (R180), `NOP`, `GEN` and `CLR`
(R181 to R183), and the finished symbol (R185). -/

namespace Sys2Proof.Machine

open Sys2Proof.Claims

/-! ### A command of the transition table, at its stage and elsewhere -/

theorem exec_of_stage_ne {i : Instr} {need after : Stage} {s : State} (htr : transition i = some (need, after))
    (herr : s.err = .noError) (hstage : s.stage ≠ need) : exec i s = .next (raise .eSeq s) := by
  obtain ⟨body, hbody⟩ := exec_eq_accept htr
  rw [hbody, accept_of_stage_ne herr hstage]

theorem exec_gen_ready {s : State} (herr : s.err = .noError) (hstage : s.stage = .idle) :
    exec .gen s = genBody s := by rw [exec_gen, accept_ready herr hstage]

theorem exec_msk_ready {s : State} (herr : s.err = .noError) (hstage : s.stage = .placed) :
    exec .msk s = mskBody s := by rw [exec_msk, accept_ready herr hstage]

@[simp] theorem finishState_stage (s : State) : (finishState s).stage = .done := maskedState_stage _ _

@[simp] theorem finishState_err (s : State) : (finishState s).err = s.err := by simp [finishState]

/-- The error is one that a command's body raises, not one of acceptance (R201 to R204). -/
def OwnError (e : ErrCode) : Prop := e ≠ .noError ∧ e ≠ .eSeq ∧ e ≠ .eCmd

theorem ownError_eEmpty : OwnError .eEmpty := by unfold OwnError; decide

theorem ownError_of_encodeText {mode : BitVec 4} {level tlen : Byte} {t : List Byte} {e : ErrCode}
    (h : encodeText mode level tlen t = .error e) : OwnError e := by
  unfold OwnError
  obtain rfl | rfl | rfl := encodeText_error h <;> decide

/-- The commands that can raise an error of their own, and the stages they can leave with it (R180). -/
def RaisingStage (i : Instr) (stage : Stage) : Prop :=
  (i = .cls ∧ stage = .idle) ∨ (i = .enc ∧ stage = .classified)
    ∨ (i = .gen ∧ (stage = .idle ∨ stage = .classified))

/-- What a command may leave at its own stage: the next stage and no error, or an error of its own. -/
def AdvancedOrRaised (i : Instr) (after : Stage) (t : State) : Prop :=
  (t.err = .noError ∧ t.stage = after) ∨ (OwnError t.err ∧ RaisingStage i t.stage)

theorem AdvancedOrRaised.stage_of_noError {i : Instr} {after : Stage} {t : State} (h : AdvancedOrRaised i after t)
    (hok : t.err = .noError) : t.stage = after := by
  obtain ⟨-, hafter⟩ | ⟨⟨hne, -⟩, -⟩ := h
  · exact hafter
  · exact absurd hok hne

theorem AdvancedOrRaised.raisingStage_of_err {i : Instr} {after : Stage} {t : State} (h : AdvancedOrRaised i after t)
    (hraised : t.err ≠ .noError) : RaisingStage i t.stage := by
  obtain ⟨hok, -⟩ | ⟨-, hstages⟩ := h
  · exact absurd hok hraised
  · exact hstages

theorem clsBody_advancedOrRaised {s : State} (herr : s.err = .noError) (hstage : s.stage = .idle) :
    AdvancedOrRaised .cls .classified (clsBody s) := by
  obtain ⟨-, h⟩ | ⟨-, h⟩ := clsBody_cases s <;> rw [h]
  · exact .inr ⟨ownError_eEmpty, .inl ⟨rfl, hstage⟩⟩
  · exact .inl ⟨herr, rfl⟩

theorem encBody_advancedOrRaised {s : State} (herr : s.err = .noError) (hstage : s.stage = .classified) :
    AdvancedOrRaised .enc .encoded (encBody s) := by
  obtain ⟨e, he, h⟩ | ⟨d, -, h⟩ := encBody_cases s <;> rw [h]
  · exact .inr ⟨ownError_of_encodeText he, .inr (.inl ⟨rfl, hstage⟩)⟩
  · exact .inl ⟨herr, rfl⟩

theorem advancedOrRaised_of_mskBody {s t : State} (herr : s.err = .noError) (h : mskBody s = .next t) :
    AdvancedOrRaised .msk .done t := by
  obtain ⟨-, hc⟩ | ⟨-, hc⟩ := mskBody_cases s <;> rw [hc] at h
  · exact next_inj h ▸ .inl ⟨by rwa [maskedState_err], maskedState_stage _ _⟩
  · cases h

theorem advancedOrRaised_of_genBody {s t : State} (herr : s.err = .noError) (hstage : s.stage = .idle)
    (h : genBody s = .next t) : AdvancedOrRaised .gen .done t := by
  obtain ⟨-, hc⟩ | ⟨-, e, -, he, hc⟩ | ⟨-, d, -, hc⟩ := genBody_cases s herr <;>
    rw [hc] at h <;> obtain rfl := next_inj h
  · exact .inr ⟨ownError_eEmpty, .inr (.inr ⟨rfl, .inl hstage⟩)⟩
  · exact .inr ⟨ownError_of_encodeText he, .inr (.inr ⟨rfl, .inr rfl⟩)⟩
  · exact .inl ⟨by rwa [finishState_err], finishState_stage _⟩

/-- Everything a command of the transition table can leave at its own stage (R180, R184). -/
theorem advancedOrRaised_of_exec {i : Instr} {need after : Stage} {s t : State}
    (htr : transition i = some (need, after)) (herr : s.err = .noError) (hstage : s.stage = need)
    (hx : exec i s = .next t) : AdvancedOrRaised i after t := by
  cases i <;> cases htr
  case cls =>
    rw [exec_cls_ready herr hstage] at hx
    exact next_inj hx ▸ clsBody_advancedOrRaised herr hstage
  case enc =>
    rw [exec_enc_ready herr hstage] at hx
    exact next_inj hx ▸ encBody_advancedOrRaised herr hstage
  case red =>
    rw [exec_red_ready herr hstage] at hx
    exact next_inj hx ▸ .inl ⟨by rwa [redBody_err], redBody_stage s⟩
  case str =>
    rw [exec_str_ready herr hstage] at hx
    exact next_inj hx ▸ .inl ⟨by rwa [strBody_err], strBody_stage s⟩
  case plc =>
    rw [exec_plc_ready herr hstage] at hx
    exact next_inj hx ▸ .inl ⟨by rwa [plcBody_err], plcBody_stage s⟩
  case msk =>
    rw [exec_msk_ready herr hstage] at hx
    exact advancedOrRaised_of_mskBody herr hx
  case gen =>
    rw [exec_gen_ready herr hstage] at hx
    exact advancedOrRaised_of_genBody herr hstage hx

/-- Settles O8: acceptance decides at another stage, and at its own a command advances or raises. -/
theorem stageTransitionTable : Obligations.StageTransitionTable := by
  intro i s t herr hx
  refine ⟨?_, ?_, fun need after htr => ⟨fun hne => ?_, fun hstage hok => ?_, fun hstage hraised => ?_⟩⟩
  · rintro rfl
    exact next_inj hx ▸ ⟨rfl, herr⟩
  · rintro rfl
    exact next_inj hx ▸ ⟨clearResults_stage s, clearResults_err s⟩
  · rw [exec_of_stage_ne htr herr hne] at hx
    exact next_inj hx ▸ ⟨raise_stage _ s, raise_err _ s⟩
  · exact (advancedOrRaised_of_exec htr herr hstage hx).stage_of_noError hok
  · exact (advancedOrRaised_of_exec htr herr hstage hx).raisingStage_of_err hraised

/-! ### Command acceptance -/

/-- The step that answers a write to `CMD` issues the word (R184). -/
theorem step_commandWrite {s : State} {w : Word} {rest : List HostEvent} (h : s.host = .write 0x000 w :: rest) :
    step s = issueWord w { s with host := rest } := by rw [step_write h, memWrite_cmd]

theorem issueWord_encode (i : Instr) (s : State) : issueWord (encode i) s = exec i s :=
  issueWord_of_decode (decode_encode i) s

/-- While an error is recorded every word but that of `CLR` is ignored (R209). -/
theorem issueWord_of_err {w : Word} {s : State} (hw : w ≠ encode .clr) (herr : s.err ≠ .noError) :
    issueWord w s = .next s := by
  obtain ⟨i, hi, h⟩ | ⟨x, -, h⟩ := issueWord_cases w s <;> rw [h]
  · have hne : i ≠ .clr := by
      rintro rfl
      exact hw (eq_encode_of_decode hi)
    exact exec_of_err herr hne
  · rw [rejectWord, if_pos herr]

/-- A word that encodes no command raises `E_CMD` (R72, R206). -/
theorem issueWord_of_illegal {w : Word} {s : State} (hw : IllegalWord w) (herr : s.err = .noError) :
    issueWord w s = .next (raise .eCmd s) := by
  obtain ⟨x, hx⟩ := (decode_error_iff w).2 hw
  simp only [issueWord, hx, rejectWord, if_neg (not_not.2 herr)]

/-- Settles O4: the word is ignored, rejected or decoded, and a decoded command is accepted at its stage. -/
theorem commandAcceptanceOrder : Obligations.CommandAcceptanceOrder := by
  intro s rest w hhost
  rw [step_commandWrite hhost]
  refine ⟨?_, fun hclr herr => issueWord_of_err (s := { s with host := rest }) hclr herr,
    fun herr hw => issueWord_of_illegal (s := { s with host := rest }) hw herr, ?_,
    fun i need after htr hw herr => ?_⟩
  · rintro rfl
    exact issueWord_encode .clr _
  · rintro - rfl
    exact issueWord_encode .nop _
  · rw [hw, issueWord_encode]
    refine ⟨fun hne => exec_of_stage_ne (s := { s with host := rest }) htr herr hne,
      fun hstage => ⟨rfl, fun t ht => ?_⟩⟩
    exact (advancedOrRaised_of_exec (s := { s with host := rest }) htr herr hstage ht).imp_right And.left

/-! ### `NOP` and `CLR` -/

/-- Settles O9: by the word's decoding and the command's arm. -/
theorem nopChangesNothing : Obligations.NopChangesNothing := ⟨decode_encode .nop, exec_nop⟩

/-- Settles O10: the fields of `clearResults`, and the lock they open. -/
theorem clrDiscardsResults : Obligations.ClrDiscardsResults := by
  refine ⟨decode_encode .clr, fun s => ⟨clearResults s, exec_clr s, resultsOnly_clearResults s, clearResults_mode s,
    clearResults_bits s, ?_, fun r c => ?_, fun k => ?_, clearResults_maskSel s, clearResults_stage s,
    clearResults_err s, (inputsOpen_iff _).2 ⟨clearResults_stage s, clearResults_err s⟩⟩⟩
  · exact (memRead_regAddr .blen _).trans (by rw [readReg, blen, clearResults_bits]; rfl)
  · rw [clearResults_grid, cell_allUnset]
  · simp [clearResults_pen]

/-! ### `GEN` -/

theorem issueAll_cons {i : Instr} {s t : State} (h : exec i s = .next t) (is : List Instr) :
    issueAll (i :: is) s = issueAll is t := by simp only [issueAll, h]

/-- While an error is recorded a list of commands without `CLR` changes nothing (R209). -/
theorem issueAll_of_err {is : List Instr} {s : State} (herr : s.err ≠ .noError) (hclr : .clr ∉ is) :
    issueAll is s = .next s := by
  induction is with
  | nil => rfl
  | cons i is ih =>
    have hi : i ≠ .clr := (List.ne_of_not_mem_cons hclr).symm
    rw [issueAll_cons (exec_of_err herr hi), ih (List.not_mem_of_not_mem_cons hclr)]

/-- A command that raises ends what a list of commands without `CLR` does (R208, R209). -/
theorem issueAll_cons_raised {i : Instr} {is : List Instr} {s t : State} (h : exec i s = .next t)
    (herr : t.err ≠ .noError) (hclr : .clr ∉ is) : issueAll (i :: is) s = .next t := by
  rw [issueAll_cons h, issueAll_of_err herr hclr]

/-- The four commands after `ENC` cannot fail (R182). -/
theorem issueAll_finish {s : State} (herr : s.err = .noError) (hstage : s.stage = .encoded) :
    issueAll [.red, .str, .plc, .msk] s = .next (finishState s) := by
  have hred_err := (redBody_err s).trans herr
  have hstr_err := (strBody_err (redBody s)).trans hred_err
  have hplc_err := (plcBody_err (strBody (redBody s))).trans hstr_err
  have hbin : (plcBody (strBody (redBody s))).grid.binary = true := by
    rw [plcBody_grid]
    exact zeroFill_binary _
  have hstr := exec_str_ready hred_err (redBody_stage s)
  have hplc := exec_plc_ready hstr_err (strBody_stage _)
  have hmsk := exec_msk_of_binary hplc_err (plcBody_stage _) hbin
  rw [issueAll_cons (exec_red_ready herr hstage), issueAll_cons hstr, issueAll_cons hplc, issueAll_cons hmsk,
    issueAll, finishState]

/-- From `STAGE = 0` the six stage commands stop where `GEN` stops: at `CLS`, at `ENC`, or at the end. -/
theorem issueAll_eq_genBody {s : State} (herr : s.err = .noError) (hstage : s.stage = .idle) :
    issueAll [.cls, .enc, .red, .str, .plc, .msk] s = genBody s := by
  have hcls := exec_cls_ready herr hstage
  by_cases hok : (clsBody s).err = .noError
  · have hstage1 := (clsBody_advancedOrRaised herr hstage).stage_of_noError hok
    have henc := exec_enc_ready hok hstage1
    rw [issueAll_cons hcls]
    by_cases hok2 : (encBody (clsBody s)).err = .noError
    · have hstage2 := (encBody_advancedOrRaised hok hstage1).stage_of_noError hok2
      rw [issueAll_cons henc, issueAll_finish hok2 hstage2, genBody_of_enc rfl hok rfl hok2]
    · rw [issueAll_cons_raised henc hok2 (by decide), genBody_of_enc_error rfl hok rfl hok2]
  · rw [issueAll_cons_raised hcls hok (by decide), genBody_of_cls_error rfl hok]

/-- Settles O11: where `GEN` is ignored or raises `E_SEQ`, so does `CLS`, and the commands after it are ignored. -/
theorem genEqualsStageCommands : Obligations.GenEqualsStageCommands := by
  refine ⟨decode_encode .gen, fun s => ?_⟩
  by_cases herr : s.err = .noError
  · by_cases hstage : s.stage = .idle
    · rw [exec_gen_ready herr hstage, issueAll_eq_genBody herr hstage]
    · rw [exec_of_stage_ne (i := .gen) rfl herr hstage,
        issueAll_cons_raised (exec_of_stage_ne (i := .cls) rfl herr hstage) (by simp) (by decide)]
  · rw [exec_of_err herr (by decide), issueAll_of_err herr (by decide)]

theorem modeCode_ne_zero (m : Mode) : modeCode m ≠ 0 := by cases m <;> decide

theorem chosenMode_eq_modeCode {s : State} {m : Mode}
    (h : s.modeReq = modeCode m ∨ (s.modeReq = 0 ∧ classify (chars s) = m)) : chosenMode s = modeCode m := by
  obtain hreq | ⟨hreq, hclass⟩ := h
  · rw [chosenMode_requested (hreq ▸ modeCode_ne_zero m), hreq]
  · rw [chosenMode_classified hreq, hclass]

/-- The grid that `MSK` scores, from the bits `RED` left (R147). -/
theorem plcBody_strBody_grid (s : State) : (plcBody (strBody s)).grid = placedGrid s.bits := by
  rw [plcBody_grid, strBody_grid, strBody_bits, placedGrid]

theorem finishState_mode (s : State) : (finishState s).mode = s.mode := by simp [finishState]

theorem finishState_bits (s : State) :
    (finishState s).bits = appendRedundancy (params.nred s.level) s.bits := by simp [finishState]

theorem finishState_pen (s : State) :
    (finishState s).pen = scores params.maskFn (placedGrid (finishState s).bits) := by
  rw [finishState_bits, finishState, maskedState_pen, plcBody_strBody_grid, redBody_bits]

theorem finishState_grid (s : State) : (finishState s).grid =
    applyMask (params.maskFn (bestMask (finishState s).pen)) (placedGrid (finishState s).bits) := by
  rw [finishState_pen, finishState_bits, finishState, maskedState_grid, plcBody_strBody_grid, redBody_bits]

theorem finishState_maskSel_toNat (s : State) :
    (finishState s).maskSel.toNat = (bestMask (finishState s).pen).val := by
  rw [finishState, maskedState_maskSel, maskedState_pen, BitVec.toNat_ofNat]
  exact Nat.mod_eq_of_lt (bestMask _).isLt

theorem finishState_grid_binary (s : State) : (finishState s).grid.binary = true := by
  rw [finishState_grid]
  exact applyMask_binary (placedGrid_binary _)

/-- `GEN` on a covered text that its level holds (R182). -/
theorem exec_gen_of_fits {s : State} {m : Mode} (herr : s.err = .noError) (hstage : s.stage = .idle)
    (hne : s.tlen ≠ 0) (hmode : chosenMode s = modeCode m) (hcov : Covers m (chars s))
    (hfit : hp m s.tlen.toNat ≤ params.cap s.level) :
    exec .gen s = .next (finishState { s with
      mode := modeCode m, bits := paddedSequence m (params.cap s.level) (chars s), stage := .encoded }) := by
  have hcls : clsBody s = { s with mode := modeCode m, stage := .classified } := by
    rw [clsBody_of_nonempty hne, hmode]
  have hencode := encodeText_of_covers (level := s.level) hcov (chars_length s)
  rw [if_neg (Nat.not_lt.2 hfit)] at hencode
  rw [exec_gen_ready herr hstage]
  exact genBody_of_enc hcls herr (encBody_of_ok hencode) herr

/-- Settles O12: `CLS` and `ENC` succeed on such a text, and the four stages after them always do. -/
theorem genCompletes : Obligations.GenCompletes := by
  intro s m herr hstage hne hreq hcov hfit
  have hlen : (paddedSequence m (params.cap s.level) (chars s)).length = params.cap s.level :=
    paddedSequence_length (cap_mod_eight s.level) (by rwa [chars_length])
  refine ⟨_, exec_gen_of_fits herr hstage hne (chosenMode_eq_modeCode hreq) hcov hfit, ?_, finishState_stage _,
    finishState_mode _, finishState_bits _, ?_, finishState_grid _, finishState_pen _, finishState_maskSel_toNat _,
    finishState_grid_binary _⟩
  · exact Eq.trans (resultsOnly_finishState _) (by rw [finishState_err])
  · rw [finishState_bits]
    exact appendRedundancy_length_of_cap hlen

/-! ### The finished symbol -/

/-- Settles O51: no command of the table is legal at `STAGE = 6` and the input lock is closed there. -/
theorem finishedSymbolIsFrozen : Obligations.FinishedSymbolIsFrozen := by
  intro s hdone
  have hbusy : s.stage ≠ .idle := by rw [hdone]; decide
  refine ⟨fun h => ?_, fun i rest herr htr hhost => ?_, fun rest hhost => ?_, fun a v rest ha hhost => ?_,
    fun t hc hstep => ?_⟩
  · obtain ⟨-, hgrid, -⟩ := finishedSymbolIsSound s h
    exact (hgrid (.inr hdone)).1
  · obtain ⟨⟨need, after⟩, htr⟩ := Option.ne_none_iff_exists'.1 htr
    have hne : s.stage ≠ need := hdone ▸ (transition_from_ne_done htr).symm
    rw [step_commandWrite hhost, issueWord_encode]
    exact exec_of_stage_ne (s := { s with host := rest }) htr herr hne
  · rw [step_commandWrite hhost, issueWord_encode, exec_nop]
  · exact (operandWritesObeyLock s rest a v hhost).2 (fun h => hbusy h.1) ha
  · obtain ⟨-, -, -, -, -, -, -, hframe⟩ := operandsStableDuringRun s t hbusy hc hstep
    exact hframe hdone

end Sys2Proof.Machine
end

section
/-! The family of `60_exceptions.md`: the block while an error is recorded (R209), what ends that (R210), how a
command raises an error (R201 to R208), and the invariant that a recorded error has its cause in the registers. -/

namespace Sys2Proof.Machine

open Sys2Proof.Claims

/-! ### While an error is recorded -/

/-- A recorded error closes the input lock (R40, R209). -/
theorem inputsOpen_of_err {s : State} (herr : s.err ≠ .noError) : inputsOpen s = false :=
  Bool.eq_false_iff.2 fun hopen => herr ((inputsOpen_iff s).1 hopen).2

/-- Settles O5: the word is not carried out, the lock is closed, and a read depends on no error. -/
theorem blockedWhileErrorRecorded : Obligations.BlockedWhileErrorRecorded := by
  intro s rest herr
  refine ⟨fun w hclr hhost => ?_, fun a v ha hhost => ?_, fun a hhost => ?_⟩
  · rw [step_commandWrite hhost]
    exact issueWord_of_err (s := { s with host := rest }) hclr herr
  · rw [step_write hhost]
    exact memWrite_locked (s := { s with host := rest }) (inputsOpen_of_err herr) ha v
  · rw [step_read hhost, hostRead, memRead_frame a s rest s.reads s.resets]

/-- While an error is recorded a step that answers neither `CLR` nor reset changes the host's side only. -/
theorem step_frame_of_err {s t : State} (herr : s.err ≠ .noError) (hc : ¬ ClearsOrResets s)
    (h : step s = .next t) : ∃ (ho : List HostEvent) (rs : List Word), t = { s with host := ho, reads := rs } := by
  cases hhost : s.host with
  | nil =>
    rw [step_nil hhost] at h
    exact ⟨s.host, s.reads, (next_inj h).symm⟩
  | cons e rest =>
    obtain ⟨hword, hwrite, hread⟩ := blockedWhileErrorRecorded s rest herr
    cases e with
    | read a =>
      rw [hread a hhost] at h
      exact ⟨rest, _, (next_inj h).symm⟩
    | reset => exact absurd ⟨rest, .inr hhost⟩ hc
    | write a v =>
      refine ⟨rest, s.reads, next_inj (h.symm.trans ?_)⟩
      by_cases ha : a = 0
      · subst ha
        refine hword v ?_ hhost
        rintro rfl
        exact hc ⟨rest, .inl hhost⟩
      · exact hwrite a v ha hhost

/-- `CLR` and the reset input leave no error and `STAGE = 0` (R183, R210, R230). -/
theorem step_of_clearsOrResets {s t : State} (hc : ClearsOrResets s) (h : step s = .next t) :
    t.err = .noError ∧ t.stage = .idle := by
  obtain ⟨rest, hhost | hhost⟩ := hc
  · have hclr : step s = .next (clearResults { s with host := rest }) :=
      (step_commandWrite hhost).trans (issueWord_encode .clr _)
    obtain rfl := next_inj (hclr.symm.trans h)
    exact ⟨clearResults_err _, clearResults_stage _⟩
  · rw [step_reset hhost] at h
    exact next_inj h ▸ ⟨resetInput_err _, resetInput_stage _⟩

/-- Settles O6: other steps leave every register, and these two clear the error. -/
theorem errorLeftOnlyByClearOrReset : Obligations.ErrorLeftOnlyByClearOrReset := by
  refine fun s t herr h => ⟨fun hc => ?_, fun hc => step_of_clearsOrResets hc h⟩
  obtain ⟨ho, rs, rfl⟩ := step_frame_of_err herr hc h
  rfl

/-! ### How a command raises an error -/

/-- `Raises s i t`: command `i`, begun at `s` with no error recorded, ends at `t` with one; a constructor for each
check that can fail (R201 to R205). -/
inductive Raises (s : State) : Instr → State → Prop where
  /-- `E_SEQ`: the command is not legal at this stage. -/
  | wrongStage {i : Instr} {need after : Stage} (htr : transition i = some (need, after))
      (hstage : s.stage ≠ need) : Raises s i (raise .eSeq s)
  /-- `E_EMPTY`: there is no text to classify. -/
  | emptyText {i : Instr} (hi : i = .cls ∨ i = .gen) (hstage : s.stage = .idle) (hempty : s.tlen = 0) :
      Raises s i (raise .eEmpty s)
  /-- `ENC` answers the encoder's error. -/
  | encode {e : ErrCode} (hstage : s.stage = .classified)
      (he : encodeText s.mode s.level s.tlen (chars s) = .error e) : Raises s .enc (raise e s)
  /-- `GEN` answers the encoder's error in the state `CLS` left. -/
  | genEncode {e : ErrCode} (hstage : s.stage = .idle) (hne : s.tlen ≠ 0)
      (he : encodeText (chosenMode s) s.level s.tlen (chars s) = .error e) :
      Raises s .gen (raise e { s with mode := chosenMode s, stage := .classified })

theorem raises_of_clsBody {s : State} (herr : s.err = .noError) (hstage : s.stage = .idle)
    (hraised : (clsBody s).err ≠ .noError) : Raises s .cls (clsBody s) := by
  obtain ⟨hempty, hc⟩ | ⟨-, hc⟩ := clsBody_cases s <;> rw [hc] at hraised ⊢
  · exact .emptyText (.inl rfl) hstage hempty
  · exact absurd herr hraised

theorem raises_of_encBody {s : State} (herr : s.err = .noError) (hstage : s.stage = .classified)
    (hraised : (encBody s).err ≠ .noError) : Raises s .enc (encBody s) := by
  obtain ⟨e, he, hc⟩ | ⟨d, -, hc⟩ := encBody_cases s <;> rw [hc] at hraised ⊢
  · exact .encode hstage he
  · exact absurd herr hraised

theorem raises_of_genBody {s t : State} (herr : s.err = .noError) (hstage : s.stage = .idle)
    (h : genBody s = .next t) (hraised : t.err ≠ .noError) : Raises s .gen t := by
  obtain ⟨hempty, hc⟩ | ⟨hne, e, -, he, hc⟩ | ⟨-, d, -, hc⟩ := genBody_cases s herr <;>
    rw [hc] at h <;> obtain rfl := next_inj h
  · exact .emptyText (.inr rfl) hstage hempty
  · exact .genEncode hstage hne he
  · exact absurd ((finishState_err _).trans herr) hraised

/-- A command at its own stage raises only where `CLS`, `ENC` or `GEN` does (R180). -/
theorem raises_of_exec_ready {i : Instr} {need after : Stage} {s t : State}
    (htr : transition i = some (need, after)) (herr : s.err = .noError) (hstage : s.stage = need)
    (hx : exec i s = .next t) (hraised : t.err ≠ .noError) : Raises s i t := by
  obtain ⟨rfl, -⟩ | ⟨rfl, -⟩ | ⟨rfl, -⟩ :=
    (advancedOrRaised_of_exec htr herr hstage hx).raisingStage_of_err hraised <;> cases htr
  · rw [exec_cls_ready herr hstage] at hx
    obtain rfl := next_inj hx
    exact raises_of_clsBody herr hstage hraised
  · rw [exec_enc_ready herr hstage] at hx
    obtain rfl := next_inj hx
    exact raises_of_encBody herr hstage hraised
  · rw [exec_gen_ready herr hstage] at hx
    exact raises_of_genBody herr hstage hx hraised

/-- Everything a command that ends with an error can have done (R184, R208). -/
theorem raises_of_exec {i : Instr} {s t : State} (herr : s.err = .noError) (hx : exec i s = .next t)
    (hraised : t.err ≠ .noError) : Raises s i t := by
  cases htr : transition i with
  | none =>
    obtain rfl | rfl := (transition_eq_none_iff i).1 htr
    · exact absurd (next_inj hx ▸ herr) hraised
    · exact absurd (next_inj hx ▸ clearResults_err s) hraised
  | some p =>
    obtain ⟨need, after⟩ := p
    by_cases hstage : s.stage = need
    · exact raises_of_exec_ready htr herr hstage hx hraised
    · rw [exec_of_stage_ne htr herr hstage] at hx
      exact next_inj hx ▸ .wrongStage htr hstage

/-- Only `GEN` changes more than `ERR` when it raises (R208). -/
theorem Raises.errOnly {i : Instr} {s t : State} (h : Raises s i t) (hi : i ≠ .gen) :
    t = { s with err := t.err } := by
  cases h with
  | wrongStage htr hstage => rfl
  | emptyText hcls hstage hempty => rfl
  | encode hstage he => rfl
  | genEncode hstage hne he => exact absurd rfl hi

/-- A `GEN` that raises ends where its `CLS` raised, or in the state its `CLS` left but for `ERR` (R182, R208). -/
theorem Raises.of_gen {s t : State} (herr : s.err = .noError) (h : Raises s .gen t) :
    ∃ c : State, exec .cls s = .next c ∧ (c.err ≠ .noError → t = { s with err := t.err })
      ∧ (c.err = .noError → t = { c with err := t.err } ∧ t.stage = .classified) := by
  cases h with
  | wrongStage htr hstage =>
    cases htr
    exact ⟨raise .eSeq s, exec_of_stage_ne (i := .cls) rfl herr hstage, fun _ => rfl, nofun⟩
  | emptyText hi hstage hempty =>
    exact ⟨raise .eEmpty s, by rw [exec_cls_ready herr hstage, clsBody, if_pos hempty], fun _ => rfl, nofun⟩
  | genEncode hstage hne he =>
    exact ⟨{ s with mode := chosenMode s, stage := .classified },
      by rw [exec_cls_ready herr hstage, clsBody_of_nonempty hne], fun hraised => absurd herr hraised,
      fun _ => ⟨rfl, rfl⟩⟩

/-- Settles O7: by the ways a command can raise, and the rejection of a reserved word. -/
theorem errorEntryChangesErrOnly : Obligations.ErrorEntryChangesErrOnly := by
  refine ⟨fun i s t herr hx hraised => ?_, fun s rest w hhost herr hw => ?_⟩
  · have hcase := raises_of_exec herr hx hraised
    refine ⟨hcase.errOnly, ?_⟩
    rintro rfl
    exact hcase.of_gen herr
  · rw [step_commandWrite hhost]
    exact issueWord_of_illegal (s := { s with host := rest }) hw herr

/-! ### A recorded error has its cause in the registers -/

theorem errorHasCause_of_noError {s : State} (h : s.err = .noError) : ErrorHasCause s := by
  unfold ErrorHasCause
  rw [h]
  trivial

/-- The invariant does not see the host's side of the interface. -/
theorem errorHasCause_frame {s : State} (h : ErrorHasCause s) (ho : List HostEvent) (rs : List Word) :
    ErrorHasCause { s with host := ho, reads := rs } := h

/-- The encoder's error recorded at `STAGE = 1` is its own cause: the encoder reads no `ERR` (R202 to R204). -/
theorem errorHasCause_of_encodeText {s : State} {e : ErrCode} (hstage : s.stage = .classified)
    (he : encodeText s.mode s.level s.tlen (chars s) = .error e) : ErrorHasCause (raise e s) := by
  obtain rfl | rfl | rfl := encodeText_error he <;> exact ⟨hstage, he⟩

theorem errorHasCause_of_raises {i : Instr} {s t : State} (h : Raises s i t) : ErrorHasCause t := by
  cases h with
  | wrongStage htr hstage => trivial
  | emptyText hi hstage hempty => exact ⟨hstage, hempty⟩
  | encode hstage he => exact errorHasCause_of_encodeText hstage he
  | genEncode hstage hne he =>
    exact errorHasCause_of_encodeText (s := { s with mode := chosenMode s, stage := .classified }) rfl he

/-- A command begun with no error recorded ends with none, or with one whose cause it leaves in the registers. -/
theorem errorHasCause_of_exec {i : Instr} {s t : State} (herr : s.err = .noError) (hx : exec i s = .next t) :
    ErrorHasCause t := by
  by_cases hraised : t.err = .noError
  · exact errorHasCause_of_noError hraised
  · exact errorHasCause_of_raises (raises_of_exec herr hx hraised)

/-- A word written to `CMD` with no error recorded: a command, or `E_CMD`, whose cause is the word. -/
theorem errorHasCause_of_issueWord {w : Word} {s t : State} (herr : s.err = .noError)
    (hw : issueWord w s = .next t) : ErrorHasCause t := by
  obtain ⟨i, -, hc⟩ | ⟨x, -, hc⟩ := issueWord_cases w s <;> rw [hc] at hw
  · exact errorHasCause_of_exec herr hw
  · obtain ⟨hne, -⟩ | ⟨-, hr⟩ := rejectWord_cases s
    · exact absurd herr hne
    · rw [hr] at hw
      exact next_inj hw ▸ trivial

/-- Only a word written to `CMD` can raise an error. -/
theorem errorHasCause_of_serve {e : HostEvent} {s t : State} (herr : s.err = .noError)
    (hv : serve e s = .next t) : ErrorHasCause t := by
  cases e with
  | read a => exact errorHasCause_of_noError (next_inj hv ▸ herr)
  | reset => exact errorHasCause_of_noError (next_inj hv ▸ resetInput_err s)
  | write a v =>
    by_cases ha : a = 0
    · subst ha
      exact errorHasCause_of_issueWord herr hv
    · obtain ⟨u, hu, hkeeps⟩ := memWrite_err ha v s
      obtain rfl := next_inj (hu.symm.trans hv)
      exact errorHasCause_of_noError (hkeeps.trans herr)

/-- A step with no error recorded. -/
theorem errorHasCause_of_step {s t : State} (herr : s.err = .noError) (hstep : step s = .next t) :
    ErrorHasCause t := by
  cases hhost : s.host with
  | nil =>
    rw [step_nil hhost] at hstep
    exact errorHasCause_of_noError (next_inj hstep ▸ herr)
  | cons e rest =>
    rw [step_cons hhost] at hstep
    exact errorHasCause_of_serve (s := { s with host := rest }) herr hstep

/-- Settles O49: an error is raised with its cause in the registers, and from then on the block changes no
register until `CLR` or reset ends the error. -/
theorem stepKeepsErrorCause : Obligations.StepKeepsErrorCause := by
  intro s t h hstep
  by_cases herr : s.err = .noError
  · exact errorHasCause_of_step herr hstep
  by_cases hc : ClearsOrResets s
  · obtain ⟨hok, -⟩ := step_of_clearsOrResets hc hstep
    exact errorHasCause_of_noError hok
  · obtain ⟨ho, rs, rfl⟩ := step_frame_of_err herr hc hstep
    exact errorHasCause_frame h ho rs

end Sys2Proof.Machine
end

section
/-! The family of `70_reset_and_hazards.md`: every host event is answered from a consistent state (R184, R233), and
the `TEXT` cells at or above `TLEN` are never seen (R21, R234). -/

namespace Sys2Proof.Machine

open Sys2Proof.Claims

/-! ### Every host event is answered -/

/-- Acceptance always answers, so a command does where its body does (R184). -/
theorem accept_answers {need : Stage} {body : State → Result} {s : State}
    (h : s.err = .noError → s.stage = need → ∃ t, body s = .next t) : ∃ t, accept need body s = .next t := by
  obtain ⟨-, hc⟩ | ⟨-, -, hc⟩ | ⟨herr, hstage, hc⟩ := accept_cases need body s <;> rw [hc]
  · exact ⟨s, rfl⟩
  · exact ⟨raise .eSeq s, rfl⟩
  · exact h herr hstage

/-- `accept_answers` for a command whose body always answers a next state. -/
theorem accept_next_answers (need : Stage) (f : State → State) (s : State) :
    ∃ t, accept need (fun s => .next (f s)) s = .next t :=
  accept_answers (body := fun s => .next (f s)) fun _ _ => ⟨f s, rfl⟩

/-- The grid `PLC` left is binary, so `MSK` is defined on it (R150, R163). -/
theorem mskBody_answers {s : State} (h : Consistent s) (hs : s.stage = .placed) : ∃ t, mskBody s = .next t := by
  rw [mskBody, if_pos (binary_of_consistent h hs)]
  exact ⟨_, rfl⟩

theorem genBody_answers {s : State} (herr : s.err = .noError) : ∃ t, genBody s = .next t := by
  obtain ⟨-, hc⟩ | ⟨-, e, -, -, hc⟩ | ⟨-, d, -, hc⟩ := genBody_cases s herr <;> exact ⟨_, hc⟩

/-- Only `MSK` rests on the invariant: the other commands answer in every state. -/
theorem exec_answers {s : State} (h : Consistent s) (i : Instr) : ∃ t, exec i s = .next t := by
  cases i
  case nop => exact ⟨s, exec_nop s⟩
  case cls => exact accept_next_answers .idle clsBody s
  case enc => exact accept_next_answers .classified encBody s
  case red => exact accept_next_answers .encoded redBody s
  case str => exact accept_next_answers .redundant strBody s
  case plc => exact accept_next_answers .structured plcBody s
  case msk => exact accept_answers (body := mskBody) fun _ hs => mskBody_answers h hs
  case gen => exact accept_answers (body := genBody) fun herr _ => genBody_answers herr
  case clr => exact ⟨_, exec_clr s⟩

theorem issueWord_answers {s : State} (h : Consistent s) (w : Word) : ∃ t, issueWord w s = .next t := by
  obtain ⟨i, -, hc⟩ | ⟨x, -, hc⟩ := issueWord_cases w s <;> rw [hc]
  · exact exec_answers h i
  · exact ⟨_, rfl⟩

theorem serve_answers {s : State} (h : Consistent s) (e : HostEvent) : ∃ t, serve e s = .next t := by
  cases e with
  | read a => exact ⟨hostRead a s, rfl⟩
  | reset => exact ⟨resetInput s, rfl⟩
  | write a v =>
    by_cases ha : a = 0
    · subst ha
      exact issueWord_answers h v
    · obtain ⟨t, ht, -⟩ := memWrite_err ha v s
      exact ⟨t, ht⟩

/-- Settles O47: only `MSK` on an Unset cell could stop the machine, and at `STAGE = 5` the invariant excludes one. -/
theorem consistentStepIsSafe : Obligations.ConsistentStepIsSafe := by
  intro s h
  unfold SafeStep
  cases hhost : s.host with
  | nil => exact ⟨s, step_nil hhost⟩
  | cons e rest =>
    rw [step_cons hhost]
    exact serve_answers (consistent_frame h s.err rest s.reads s.resets) e

/-! ### What no command sees -/

/-- `s` with the `TEXT` cells of `u`, and with what no register shows: the answers given and the count of resets. -/
def withHidden (u s : State) : State := { s with text := u.text, reads := u.reads, resets := u.resets }

/-- The text of `s` below its `TLEN` stands in the `TEXT` cells of `u` too. -/
def SharesText (u s : State) : Prop := ∀ i : Fin 255, i.val < s.tlen.toNat → s.text[i] = u.text[i]

theorem chars_withHidden {u s : State} (h : SharesText u s) : chars (withHidden u s) = chars s :=
  (chars_eq_of_agree (s := s) (t := withHidden u s) rfl h).symm

theorem sharesText_of_resultsOnly {u s t : State} (h : SharesText u s) (hr : ResultsOnly s t) : SharesText u t := by
  rw [hr]
  exact h

theorem sameSymbol_withHidden {u s : State} (h : SharesText u s) : SameSymbol s (withHidden u s) :=
  ⟨rfl, rfl, rfl, h, rfl, rfl, rfl, rfl, rfl, rfl, rfl⟩

/-- At `STAGE = 0` all result registers are empty, so states that agree on the operands differ in the hidden part
only. -/
theorem eq_withHidden_of_idle {s t : State} (hs : Consistent s) (ht : Consistent t) (hsi : s.stage = .idle)
    (hti : t.stage = .idle) (herr : s.err = t.err) (htlen : s.tlen = t.tlen) (hlevel : s.level = t.level)
    (hreq : s.modeReq = t.modeReq) (hhost : s.host = t.host) : t = withHidden t s := by
  obtain ⟨hmode, hbits, hgrid, hpen, hsel⟩ := (consistent_idle hsi).1 hs
  obtain ⟨hmode', hbits', hgrid', hpen', hsel'⟩ := (consistent_idle hti).1 ht
  rw [withHidden, htlen, hlevel, hreq, hmode.trans hmode'.symm, hbits.trans hbits'.symm, hgrid.trans hgrid'.symm,
    hpen.trans hpen'.symm, hsel.trans hsel'.symm, hsi.trans hti.symm, herr, hhost]

/-! ### Each command commutes with a change of the hidden part -/

theorem chosenMode_withHidden {u s : State} (h : SharesText u s) : chosenMode (withHidden u s) = chosenMode s := by
  rw [chosenMode, chars_withHidden h]
  rfl

theorem clsBody_withHidden {u s : State} (h : SharesText u s) :
    clsBody (withHidden u s) = withHidden u (clsBody s) := by
  obtain ⟨hempty, hc⟩ | ⟨hne, hc⟩ := clsBody_cases s <;> rw [hc]
  · exact if_pos hempty
  · rw [clsBody_of_nonempty (s := withHidden u s) hne, chosenMode_withHidden h]
    rfl

theorem encBody_withHidden {u s : State} (h : SharesText u s) :
    encBody (withHidden u s) = withHidden u (encBody s) := by
  have hchars := chars_withHidden h
  obtain ⟨e, he, hc⟩ | ⟨d, hd, hc⟩ := encBody_cases s <;> rw [hc]
  · exact encBody_of_error (s := withHidden u s) (hchars.symm ▸ he)
  · exact encBody_of_ok (s := withHidden u s) (hchars.symm ▸ hd)

theorem mskBody_withHidden {u s t : State} (h : mskBody s = .next t) :
    mskBody (withHidden u s) = .next (withHidden u t) := by
  obtain ⟨hbinary, hc⟩ | ⟨-, hc⟩ := mskBody_cases s <;> rw [hc] at h
  · exact next_inj h ▸ if_pos hbinary
  · cases h

theorem finishState_withHidden (u s : State) : finishState (withHidden u s) = withHidden u (finishState s) := rfl

theorem genBody_withHidden {u s t : State} (hu : SharesText u s) (h : genBody s = .next t) :
    genBody (withHidden u s) = .next (withHidden u t) := by
  have hcls := clsBody_withHidden hu
  have henc := encBody_withHidden (sharesText_of_resultsOnly hu (resultsOnly_clsBody s))
  by_cases herr : (clsBody s).err = .noError
  · by_cases herr' : (encBody (clsBody s)).err = .noError
    · obtain rfl := next_inj ((genBody_of_enc rfl herr rfl herr').symm.trans h)
      rw [← finishState_withHidden]
      exact genBody_of_enc hcls herr henc herr'
    · obtain rfl := next_inj ((genBody_of_enc_error rfl herr rfl herr').symm.trans h)
      exact genBody_of_enc_error hcls herr henc herr'
  · obtain rfl := next_inj ((genBody_of_cls_error rfl herr).symm.trans h)
    exact genBody_of_cls_error hcls herr

/-- Acceptance reads `ERR` and `STAGE` only (R184). -/
theorem accept_withHidden {need : Stage} {body : State → Result} {u s t : State}
    (hbody : body s = .next t → body (withHidden u s) = .next (withHidden u t))
    (h : accept need body s = .next t) : accept need body (withHidden u s) = .next (withHidden u t) := by
  obtain ⟨herr, hc⟩ | ⟨herr, hstage, hc⟩ | ⟨herr, hstage, hc⟩ := accept_cases need body s <;> rw [hc] at h
  · exact next_inj h ▸ accept_of_err (s := withHidden u s) herr
  · exact next_inj h ▸ accept_of_stage_ne (s := withHidden u s) herr hstage
  · exact (accept_ready (s := withHidden u s) herr hstage).trans (hbody h)

/-- `accept_withHidden` for a command whose body always answers a next state. -/
theorem accept_next_withHidden {need : Stage} {f : State → State} {u s t : State}
    (hf : f (withHidden u s) = withHidden u (f s)) (h : accept need (fun s => .next (f s)) s = .next t) :
    accept need (fun s => .next (f s)) (withHidden u s) = .next (withHidden u t) :=
  accept_withHidden (body := fun s => .next (f s))
    (fun hb => congrArg Host.Outcome.next (hf.trans (congrArg (withHidden u) (next_inj hb)))) h

theorem exec_withHidden {i : Instr} {u s t : State} (hu : SharesText u s) (h : exec i s = .next t) :
    exec i (withHidden u s) = .next (withHidden u t) := by
  cases i
  case nop => exact next_inj h ▸ exec_nop _
  case cls => exact accept_next_withHidden (clsBody_withHidden hu) h
  case enc => exact accept_next_withHidden (encBody_withHidden hu) h
  case red => exact accept_next_withHidden (f := redBody) rfl h
  case str => exact accept_next_withHidden (f := strBody) rfl h
  case plc => exact accept_next_withHidden (f := plcBody) rfl h
  case msk => exact accept_withHidden mskBody_withHidden h
  case gen => exact accept_withHidden (genBody_withHidden hu) h
  case clr => exact next_inj h ▸ exec_clr _

theorem rejectWord_withHidden (u s : State) : rejectWord (withHidden u s) = withHidden u (rejectWord s) := by
  obtain ⟨herr, hc⟩ | ⟨herr, hc⟩ := rejectWord_cases s <;> rw [hc]
  · exact if_pos herr
  · exact if_neg (not_not.2 herr)

theorem issueWord_withHidden {w : Word} {u s t : State} (hu : SharesText u s) (h : issueWord w s = .next t) :
    issueWord w (withHidden u s) = .next (withHidden u t) := by
  cases hw : decode w with
  | ok i =>
    rw [issueWord_of_decode hw] at h ⊢
    exact exec_withHidden hu h
  | error x =>
    simp only [issueWord, hw] at h ⊢
    rw [rejectWord_withHidden, next_inj h]

/-! ### Runs of command words -/

/-- The host accesses that write the words to `CMD`, one after the other. -/
def wordWrites (ws : List Word) : List HostEvent := ws.map fun w => .write 0x000 w

theorem run_withHidden (ws : List Word) {u s : State} (hs : Consistent s) (hu : SharesText u s)
    (hhost : s.host = wordWrites ws) : ∃ t, core.run ws.length s = .next t
      ∧ core.run ws.length (withHidden u s) = .next (withHidden u t) ∧ SharesText u t := by
  induction ws generalizing s with
  | nil => exact ⟨s, rfl, rfl, hu⟩
  | cons w ws ih =>
    obtain ⟨t, hstep⟩ := consistentStepIsSafe s hs
    have hu' : SharesText u { s with host := wordWrites ws } := hu
    have hissue : issueWord w { s with host := wordWrites ws } = .next t :=
      (step_commandWrite hhost).symm.trans hstep
    have hstep' : step (withHidden u s) = .next (withHidden u t) :=
      (step_commandWrite (s := withHidden u s) hhost).trans (issueWord_withHidden hu' hissue)
    have hresults := resultsOnly_of_issueWord hissue
    rw [List.length_cons, run_succ hstep, run_succ hstep']
    exact ih (stepKeepsConsistent s t hs hstep) (sharesText_of_resultsOnly hu' hresults)
      (congrArg State.host hresults)

/-- Settles O53: at `STAGE = 0` two such states differ in the hidden part only, and each command word commutes with
a change of it. -/
theorem unusedTextIsNeverSeen : Obligations.UnusedTextIsNeverSeen := by
  intro s t ws hs ht hsi hti hserr hterr htlen hlevel hreq htext
  have hs' := consistent_frame hs s.err (wordWrites ws) s.reads s.resets
  have ht' := consistent_frame ht t.err (wordWrites ws) t.reads t.resets
  obtain ⟨s', hrun, hrun', hshares⟩ := run_withHidden ws (u := t) hs' htext rfl
  have hsplit := eq_withHidden_of_idle hs' ht' hsi hti (hserr.trans hterr.symm) htlen hlevel hreq rfl
  refine ⟨s', withHidden t s', hrun, ?_, sameSymbol_withHidden hshares⟩
  rw [← hrun']
  exact congrArg (core.run ws.length) hsplit

end Sys2Proof.Machine
end
